-- ==== Sys2Proof/Word.lean ====
section
/-! DEFINITION. The word types of the machine: every value is an unsigned bit vector of the width the
spec states (00_scope.md R8). -/

namespace Sys2Proof

/-- One byte: a general register, a timer, a memory cell (10_state.md R21, R27; 20_memory.md R50). -/
abbrev Byte := BitVec 8

/-- A 16-bit word: I, PC, a stack entry, an instruction (10_state.md R23, R24, R26; 30_encoding.md R70). -/
abbrev Word := BitVec 16

/-- A 4-bit field: a register index x or y, the height n, a key or digit index (30_encoding.md R71). -/
abbrev Nibble := BitVec 4

/-- The 12-bit address immediate nnn (30_encoding.md R71). -/
abbrev Addr := BitVec 12

end Sys2Proof
end

