-- ==== Sys2Proof/Syntax.lean ====
section
/-! DEFINITION. The instructions: one constructor per row of spec/opcode_table.json, in the table's order.
Every operand field has exactly the width of 30_encoding.md R71. -/

namespace Sys2Proof

/-- The 34 instructions of 30_encoding.md R80. -/
inductive Instr where
  /-- CLS, 00E0 (43_display.md R182). -/
  | cls
  /-- RET, 00EE (40_control.md R103). -/
  | ret
  /-- JP nnn, 1nnn (40_control.md R104). -/
  | jp (nnn : Addr)
  /-- CALL nnn, 2nnn (40_control.md R105). -/
  | call (nnn : Addr)
  /-- SE Vx, kk, 3xkk (40_control.md R106). -/
  | seImm (x : Nibble) (kk : Byte)
  /-- SNE Vx, kk, 4xkk (40_control.md R107). -/
  | sneImm (x : Nibble) (kk : Byte)
  /-- SE Vx, Vy, 5xy0 (40_control.md R108). -/
  | seReg (x y : Nibble)
  /-- LD Vx, kk, 6xkk (41_alu.md R131). -/
  | ldImm (x : Nibble) (kk : Byte)
  /-- ADD Vx, kk, 7xkk (41_alu.md R132). -/
  | addImm (x : Nibble) (kk : Byte)
  /-- LD Vx, Vy, 8xy0 (41_alu.md R133). -/
  | ldReg (x y : Nibble)
  /-- OR Vx, Vy, 8xy1 (41_alu.md R134). -/
  | or (x y : Nibble)
  /-- AND Vx, Vy, 8xy2 (41_alu.md R135). -/
  | and (x y : Nibble)
  /-- XOR Vx, Vy, 8xy3 (41_alu.md R136). -/
  | xor (x y : Nibble)
  /-- ADD Vx, Vy, 8xy4 (41_alu.md R137). -/
  | addReg (x y : Nibble)
  /-- SUB Vx, Vy, 8xy5 (41_alu.md R138). -/
  | sub (x y : Nibble)
  /-- SHR Vx, 8xy6; y is carried and ignored (41_alu.md R139). -/
  | shr (x y : Nibble)
  /-- SUBN Vx, Vy, 8xy7 (41_alu.md R140). -/
  | subn (x y : Nibble)
  /-- SHL Vx, 8xyE; y is carried and ignored (41_alu.md R141). -/
  | shl (x y : Nibble)
  /-- SNE Vx, Vy, 9xy0 (40_control.md R109). -/
  | sneReg (x y : Nibble)
  /-- LD I, nnn, Annn (42_index_memory.md R160). -/
  | ldI (nnn : Addr)
  /-- JP V0, nnn, Bnnn (40_control.md R110). -/
  | jpV0 (nnn : Addr)
  /-- RND Vx, kk, Cxkk (41_alu.md R142). -/
  | rnd (x : Nibble) (kk : Byte)
  /-- DRW Vx, Vy, n, Dxyn (43_display.md R183). -/
  | drw (x y n : Nibble)
  /-- SKP Vx, Ex9E (44_timers_keys.md R206). -/
  | skp (x : Nibble)
  /-- SKNP Vx, ExA1 (44_timers_keys.md R207). -/
  | sknp (x : Nibble)
  /-- LD Vx, DT, Fx07 (44_timers_keys.md R202). -/
  | ldVxDt (x : Nibble)
  /-- LD Vx, K, Fx0A (44_timers_keys.md R208). -/
  | ldVxK (x : Nibble)
  /-- LD DT, Vx, Fx15 (44_timers_keys.md R203). -/
  | ldDtVx (x : Nibble)
  /-- LD ST, Vx, Fx18 (44_timers_keys.md R204). -/
  | ldStVx (x : Nibble)
  /-- ADD I, Vx, Fx1E (42_index_memory.md R161). -/
  | addI (x : Nibble)
  /-- LD F, Vx, Fx29 (42_index_memory.md R162). -/
  | ldF (x : Nibble)
  /-- LD B, Vx, Fx33 (42_index_memory.md R163). -/
  | ldB (x : Nibble)
  /-- LD [I], Vx, Fx55 (42_index_memory.md R164). -/
  | ldMemVx (x : Nibble)
  /-- LD Vx, [I], Fx65 (42_index_memory.md R165). -/
  | ldVxMem (x : Nibble)
  deriving DecidableEq, Repr

end Sys2Proof
end

