-- ==== Sys2Proof/WellFormed.lean ====
section
/-! DEFINITION. The six formats of 30_encoding.md R72, operand values as a program's author writes them
(numbers of any size), and the check that each fits its field: "an assembler must refuse a value that does
not fit" (R84). -/

namespace Sys2Proof

/-- The formats of 30_encoding.md R72. -/
inductive Format where
  /-- A fixed word: 00E0, 00EE. -/
  | z
  /-- An address nnn. -/
  | a
  /-- A register x and a byte kk. -/
  | xk
  /-- Two registers x, y; the low nibble selects the function. -/
  | xy
  /-- Two registers x, y and a height n. -/
  | xyn
  /-- A register x; the low byte selects the function. -/
  | xf
  deriving DecidableEq, Repr

/-- Operand values before they are put into fields; an operand a format lacks is 0, and an omitted Vy of
SHR and SHL is y = 0 (30_encoding.md R84). -/
structure OperandValues where
  /-- Register index x. -/
  x : Nat := 0
  /-- Register index y. -/
  y : Nat := 0
  /-- Sprite height n. -/
  n : Nat := 0
  /-- Byte immediate kk. -/
  kk : Nat := 0
  /-- Address immediate nnn. -/
  nnn : Nat := 0
  deriving DecidableEq, Repr

/-- `v` fits an unsigned field of `width` bits. -/
def fitsIn (width v : Nat) : Bool := v < 2 ^ width

/-- Every operand of the format fits its field (30_encoding.md R71, R72, R84). -/
def OperandValues.wellFormed (o : OperandValues) : Format → Bool
  | .z => true
  | .a => fitsIn 12 o.nnn
  | .xk => fitsIn 4 o.x && fitsIn 8 o.kk
  | .xy => fitsIn 4 o.x && fitsIn 4 o.y
  | .xyn => fitsIn 4 o.x && fitsIn 4 o.y && fitsIn 4 o.n
  | .xf => fitsIn 4 o.x

/-- The format column of 30_encoding.md R72. -/
def Instr.format : Instr → Format
  | .cls | .ret => .z
  | .jp _ | .call _ | .ldI _ | .jpV0 _ => .a
  | .seImm _ _ | .sneImm _ _ | .ldImm _ _ | .addImm _ _ | .rnd _ _ => .xk
  | .seReg _ _ | .ldReg _ _ | .or _ _ | .and _ _ | .xor _ _ | .addReg _ _ | .sub _ _ | .shr _ _
  | .subn _ _ | .shl _ _ | .sneReg _ _ => .xy
  | .drw _ _ _ => .xyn
  | .skp _ | .sknp _ | .ldVxDt _ | .ldVxK _ | .ldDtVx _ | .ldStVx _ | .addI _ | .ldF _ | .ldB _
  | .ldMemVx _ | .ldVxMem _ => .xf

/-- The operand values of an instruction. -/
def Instr.operandValues : Instr → OperandValues
  | .cls | .ret => {}
  | .jp nnn | .call nnn | .ldI nnn | .jpV0 nnn => { nnn := nnn.toNat }
  | .seImm x kk | .sneImm x kk | .ldImm x kk | .addImm x kk | .rnd x kk =>
    { x := x.toNat, kk := kk.toNat }
  | .seReg x y | .ldReg x y | .or x y | .and x y | .xor x y | .addReg x y | .sub x y | .shr x y
  | .subn x y | .shl x y | .sneReg x y => { x := x.toNat, y := y.toNat }
  | .drw x y n => { x := x.toNat, y := y.toNat, n := n.toNat }
  | .skp x | .sknp x | .ldVxDt x | .ldVxK x | .ldDtVx x | .ldStVx x | .addI x | .ldF x | .ldB x
  | .ldMemVx x | .ldVxMem x => { x := x.toNat }

/-- An instruction is well formed when its operands fit their fields. The constructors' field types have
exactly the widths of 30_encoding.md R71, so every Instr is well formed (Laws/Encoding.lean); the check has
content on OperandValues. -/
def Instr.wellFormed (i : Instr) : Bool := i.operandValues.wellFormed i.format

end Sys2Proof
end

