-- ==== Sys2Proof/Decode.lean ====
section
/-! DEFINITION. Fields, decoder, opcode table and encoder (30_encoding.md R70 to R85). -/

namespace Sys2Proof

/-! ### Fields (R71) -/

/-- `op`, w[15:12]. -/
def fieldOp (w : Word) : Nibble := w.extractLsb' 12 4
/-- `x`, w[11:8]. -/
def fieldX (w : Word) : Nibble := w.extractLsb' 8 4
/-- `y`, w[7:4]. -/
def fieldY (w : Word) : Nibble := w.extractLsb' 4 4
/-- `n`, w[3:0]. -/
def fieldN (w : Word) : Nibble := w.extractLsb' 0 4
/-- `kk`, w[7:0]. -/
def fieldKk (w : Word) : Byte := w.extractLsb' 0 8
/-- `nnn`, w[11:0]. -/
def fieldNnn (w : Word) : Addr := w.extractLsb' 0 12

/-! ### Decoder -/

/-- Why a decode gives no instruction. -/
inductive DecodeError where
  /-- The word matches no row of the opcode table (R77, R81, R82). -/
  | unknownOpcode (w : Word)
  /-- Fewer than the two bytes of an instruction were given (R70); a fetch always gives two. -/
  | truncated
  deriving DecidableEq, Repr

/-- `Decode(w)` of R76: exact (R82), total, and a function of the word alone (R70). -/
def decode (w : Word) : Except DecodeError Instr :=
  match fieldOp w with
  | 0x0#4 =>
    match fieldNnn w with
    | 0x0E0#12 => .ok .cls
    | 0x0EE#12 => .ok .ret
    | _ => .error (.unknownOpcode w)
  | 0x1#4 => .ok (.jp (fieldNnn w))
  | 0x2#4 => .ok (.call (fieldNnn w))
  | 0x3#4 => .ok (.seImm (fieldX w) (fieldKk w))
  | 0x4#4 => .ok (.sneImm (fieldX w) (fieldKk w))
  | 0x5#4 =>
    match fieldN w with
    | 0x0#4 => .ok (.seReg (fieldX w) (fieldY w))
    | _ => .error (.unknownOpcode w)
  | 0x6#4 => .ok (.ldImm (fieldX w) (fieldKk w))
  | 0x7#4 => .ok (.addImm (fieldX w) (fieldKk w))
  | 0x8#4 =>
    match fieldN w with
    | 0x0#4 => .ok (.ldReg (fieldX w) (fieldY w))
    | 0x1#4 => .ok (.or (fieldX w) (fieldY w))
    | 0x2#4 => .ok (.and (fieldX w) (fieldY w))
    | 0x3#4 => .ok (.xor (fieldX w) (fieldY w))
    | 0x4#4 => .ok (.addReg (fieldX w) (fieldY w))
    | 0x5#4 => .ok (.sub (fieldX w) (fieldY w))
    | 0x6#4 => .ok (.shr (fieldX w) (fieldY w))
    | 0x7#4 => .ok (.subn (fieldX w) (fieldY w))
    | 0xE#4 => .ok (.shl (fieldX w) (fieldY w))
    | _ => .error (.unknownOpcode w)
  | 0x9#4 =>
    match fieldN w with
    | 0x0#4 => .ok (.sneReg (fieldX w) (fieldY w))
    | _ => .error (.unknownOpcode w)
  | 0xA#4 => .ok (.ldI (fieldNnn w))
  | 0xB#4 => .ok (.jpV0 (fieldNnn w))
  | 0xC#4 => .ok (.rnd (fieldX w) (fieldKk w))
  | 0xD#4 => .ok (.drw (fieldX w) (fieldY w) (fieldN w))
  | 0xE#4 =>
    match fieldKk w with
    | 0x9E#8 => .ok (.skp (fieldX w))
    | 0xA1#8 => .ok (.sknp (fieldX w))
    | _ => .error (.unknownOpcode w)
  | 0xF#4 =>
    match fieldKk w with
    | 0x07#8 => .ok (.ldVxDt (fieldX w))
    | 0x0A#8 => .ok (.ldVxK (fieldX w))
    | 0x15#8 => .ok (.ldDtVx (fieldX w))
    | 0x18#8 => .ok (.ldStVx (fieldX w))
    | 0x1E#8 => .ok (.addI (fieldX w))
    | 0x29#8 => .ok (.ldF (fieldX w))
    | 0x33#8 => .ok (.ldB (fieldX w))
    | 0x55#8 => .ok (.ldMemVx (fieldX w))
    | 0x65#8 => .ok (.ldVxMem (fieldX w))
    | _ => .error (.unknownOpcode w)
  | _ => .error (.unknownOpcode w)

/-- The word of two bytes in memory order: the byte at the lower address is bits 15:8 (R70, 20_memory.md
R53, R57). -/
def bigEndian (hi lo : Byte) : Word := hi ++ lo

/-- Decoding bytes in memory order: the first two are the instruction's word. -/
def decodeBytes : List Byte → Except DecodeError Instr
  | hi :: lo :: _ => decode (bigEndian hi lo)
  | _ => .error .truncated

/-- The high byte of a word, stored at the lower address (20_memory.md R54). -/
def highByte (w : Word) : Byte := w.extractLsb' 8 8
/-- The low byte of a word, stored at the higher address (20_memory.md R54). -/
def lowByte (w : Word) : Byte := w.extractLsb' 0 8

/-- The word of an instruction whose bits are `w`, `nbits` of them given and every higher bit 0. -/
def tableWord (nbits w : Nat) : Word := BitVec.ofNat 16 (w % 2 ^ nbits)

/-- What the decoder reads from a word numbered as spec/opcode_table.json numbers it, laid out in memory
order first. -/
def decodeTableWord (nbits w : Nat) : Option Instr :=
  match decodeBytes [highByte (tableWord nbits w), lowByte (tableWord nbits w)] with
  | .ok i => some i
  | .error _ => none

/-! ### Encoder, from the patterns of R80 and the formats of R72 -/

/-- Format A. -/
def encodeA (op : Nibble) (nnn : Addr) : Word := op ++ nnn
/-- Formats XK and XF. -/
def encodeXK (op x : Nibble) (kk : Byte) : Word := op ++ (x ++ kk : BitVec 12)
/-- Formats XY and XYN. -/
def encodeXY (op x y n : Nibble) : Word := op ++ (x ++ (y ++ n : BitVec 8) : BitVec 12)

/-- The one word of each instruction (R80, R85). -/
def encode : Instr → Word
  | .cls => 0x00E0#16
  | .ret => 0x00EE#16
  | .jp nnn => encodeA 0x1#4 nnn
  | .call nnn => encodeA 0x2#4 nnn
  | .seImm x kk => encodeXK 0x3#4 x kk
  | .sneImm x kk => encodeXK 0x4#4 x kk
  | .seReg x y => encodeXY 0x5#4 x y 0x0#4
  | .ldImm x kk => encodeXK 0x6#4 x kk
  | .addImm x kk => encodeXK 0x7#4 x kk
  | .ldReg x y => encodeXY 0x8#4 x y 0x0#4
  | .or x y => encodeXY 0x8#4 x y 0x1#4
  | .and x y => encodeXY 0x8#4 x y 0x2#4
  | .xor x y => encodeXY 0x8#4 x y 0x3#4
  | .addReg x y => encodeXY 0x8#4 x y 0x4#4
  | .sub x y => encodeXY 0x8#4 x y 0x5#4
  | .shr x y => encodeXY 0x8#4 x y 0x6#4
  | .subn x y => encodeXY 0x8#4 x y 0x7#4
  | .shl x y => encodeXY 0x8#4 x y 0xE#4
  | .sneReg x y => encodeXY 0x9#4 x y 0x0#4
  | .ldI nnn => encodeA 0xA#4 nnn
  | .jpV0 nnn => encodeA 0xB#4 nnn
  | .rnd x kk => encodeXK 0xC#4 x kk
  | .drw x y n => encodeXY 0xD#4 x y n
  | .skp x => encodeXK 0xE#4 x 0x9E#8
  | .sknp x => encodeXK 0xE#4 x 0xA1#8
  | .ldVxDt x => encodeXK 0xF#4 x 0x07#8
  | .ldVxK x => encodeXK 0xF#4 x 0x0A#8
  | .ldDtVx x => encodeXK 0xF#4 x 0x15#8
  | .ldStVx x => encodeXK 0xF#4 x 0x18#8
  | .addI x => encodeXK 0xF#4 x 0x1E#8
  | .ldF x => encodeXK 0xF#4 x 0x29#8
  | .ldB x => encodeXK 0xF#4 x 0x33#8
  | .ldMemVx x => encodeXK 0xF#4 x 0x55#8
  | .ldVxMem x => encodeXK 0xF#4 x 0x65#8

/-! ### The opcode table of R80 as match and mask -/

/-- One row of 30_encoding.md R80 and spec/opcode_table.json: "An instruction row matches when
`w AND mask = match`" (R76). -/
structure OpcodeRow where
  /-- The row's mnemonic in spec/opcode_table.json. -/
  mnemonic : String
  /-- The format of R72. -/
  format : Format
  /-- The match value. -/
  pattern : Word
  /-- The mask value. -/
  mask : Word
  deriving DecidableEq, Repr

/-- The 34 rows, in the table's order. -/
def opcodeTable : List OpcodeRow := [
  ⟨"CLS", .z, 0x00E0, 0xFFFF⟩, ⟨"RET", .z, 0x00EE, 0xFFFF⟩, ⟨"JP", .a, 0x1000, 0xF000⟩,
  ⟨"CALL", .a, 0x2000, 0xF000⟩, ⟨"SE_IMM", .xk, 0x3000, 0xF000⟩, ⟨"SNE_IMM", .xk, 0x4000, 0xF000⟩,
  ⟨"SE_REG", .xy, 0x5000, 0xF00F⟩, ⟨"LD_IMM", .xk, 0x6000, 0xF000⟩, ⟨"ADD_IMM", .xk, 0x7000, 0xF000⟩,
  ⟨"LD_REG", .xy, 0x8000, 0xF00F⟩, ⟨"OR", .xy, 0x8001, 0xF00F⟩, ⟨"AND", .xy, 0x8002, 0xF00F⟩,
  ⟨"XOR", .xy, 0x8003, 0xF00F⟩, ⟨"ADD_REG", .xy, 0x8004, 0xF00F⟩, ⟨"SUB", .xy, 0x8005, 0xF00F⟩,
  ⟨"SHR", .xy, 0x8006, 0xF00F⟩, ⟨"SUBN", .xy, 0x8007, 0xF00F⟩, ⟨"SHL", .xy, 0x800E, 0xF00F⟩,
  ⟨"SNE_REG", .xy, 0x9000, 0xF00F⟩, ⟨"LD_I", .a, 0xA000, 0xF000⟩, ⟨"JP_V0", .a, 0xB000, 0xF000⟩,
  ⟨"RND", .xk, 0xC000, 0xF000⟩, ⟨"DRW", .xyn, 0xD000, 0xF000⟩, ⟨"SKP", .xf, 0xE09E, 0xF0FF⟩,
  ⟨"SKNP", .xf, 0xE0A1, 0xF0FF⟩, ⟨"LD_VX_DT", .xf, 0xF007, 0xF0FF⟩, ⟨"LD_VX_K", .xf, 0xF00A, 0xF0FF⟩,
  ⟨"LD_DT_VX", .xf, 0xF015, 0xF0FF⟩, ⟨"LD_ST_VX", .xf, 0xF018, 0xF0FF⟩, ⟨"ADD_I", .xf, 0xF01E, 0xF0FF⟩,
  ⟨"LD_F", .xf, 0xF029, 0xF0FF⟩, ⟨"LD_B", .xf, 0xF033, 0xF0FF⟩, ⟨"LD_MEM_VX", .xf, 0xF055, 0xF0FF⟩,
  ⟨"LD_VX_MEM", .xf, 0xF065, 0xF0FF⟩]

/-- The row test of R76. -/
def rowMatches (r : OpcodeRow) (w : Word) : Bool := w &&& r.mask == r.pattern

/-- Some row matches the word: it is an instruction and not Unknown (R76). -/
def wordInTable (w : Word) : Bool := opcodeTable.any (rowMatches · w)

/-- The position of an instruction's row in the table. -/
def rowIndex : Instr → Nat
  | .cls => 0 | .ret => 1 | .jp _ => 2 | .call _ => 3 | .seImm _ _ => 4 | .sneImm _ _ => 5
  | .seReg _ _ => 6 | .ldImm _ _ => 7 | .addImm _ _ => 8 | .ldReg _ _ => 9 | .or _ _ => 10
  | .and _ _ => 11 | .xor _ _ => 12 | .addReg _ _ => 13 | .sub _ _ => 14 | .shr _ _ => 15
  | .subn _ _ => 16 | .shl _ _ => 17 | .sneReg _ _ => 18 | .ldI _ => 19 | .jpV0 _ => 20
  | .rnd _ _ => 21 | .drw _ _ _ => 22 | .skp _ => 23 | .sknp _ => 24 | .ldVxDt _ => 25
  | .ldVxK _ => 26 | .ldDtVx _ => 27 | .ldStVx _ => 28 | .addI _ => 29 | .ldF _ => 30 | .ldB _ => 31
  | .ldMemVx _ => 32 | .ldVxMem _ => 33

/-- An instruction's row. -/
def rowOf (i : Instr) : OpcodeRow := opcodeTable.getD (rowIndex i) ⟨"", .z, 0, 0⟩

/-- The operand bits of a format, each value in its field (R72). -/
def operandBits (o : OperandValues) : Format → Nat
  | .z => 0
  | .a => o.nnn
  | .xk => o.x * 0x100 + o.kk
  | .xy => o.x * 0x100 + o.y * 0x10
  | .xyn => o.x * 0x100 + o.y * 0x10 + o.n
  | .xf => o.x * 0x100

/-- Assembling a row with operand values: one word (R85), or none where a value does not fit (R84). -/
def assemble (r : OpcodeRow) (o : OperandValues) : Option Word :=
  if o.wellFormed r.format then some (BitVec.ofNat 16 (r.pattern.toNat + operandBits o r.format)) else none

/-! ### Assembler text (R84) -/

/-- One hexadecimal digit. -/
def hexText (d : Nibble) : String :=
  ["0", "1", "2", "3", "4", "5", "6", "7", "8", "9", "A", "B", "C", "D", "E", "F"].getD d.toNat ""

/-- An immediate kk, two hexadecimal digits. -/
def byteText (kk : Byte) : String := hexText (kk.extractLsb' 4 4) ++ hexText (kk.extractLsb' 0 4)

/-- An immediate nnn, three hexadecimal digits. -/
def addrText (nnn : Addr) : String :=
  hexText (nnn.extractLsb' 8 4) ++ hexText (nnn.extractLsb' 4 4) ++ hexText (nnn.extractLsb' 0 4)

/-- A register, V0 to VF. -/
def regText (x : Nibble) : String := "V" ++ hexText x

/-- A mnemonic with two registers. -/
def twoRegsText (m : String) (x y : Nibble) : String := m ++ " " ++ regText x ++ ", " ++ regText y

/-- A mnemonic with a register and a byte. -/
def regByteText (m : String) (x : Nibble) (kk : Byte) : String := m ++ " " ++ regText x ++ ", " ++ byteText kk

/-- SHR and SHL: Vy is omitted where y = 0. -/
def shiftText (m : String) (x y : Nibble) : String := if y = 0 then m ++ " " ++ regText x else twoRegsText m x y

/-- An instruction as the conventional assembler writes it, destination first (R84; the column "syntax" of
R80). The spec gives it as names only, decision D28. -/
def Instr.text : Instr → String
  | .cls => "CLS"
  | .ret => "RET"
  | .jp nnn => "JP " ++ addrText nnn
  | .call nnn => "CALL " ++ addrText nnn
  | .seImm x kk => regByteText "SE" x kk
  | .sneImm x kk => regByteText "SNE" x kk
  | .seReg x y => twoRegsText "SE" x y
  | .ldImm x kk => regByteText "LD" x kk
  | .addImm x kk => regByteText "ADD" x kk
  | .ldReg x y => twoRegsText "LD" x y
  | .or x y => twoRegsText "OR" x y
  | .and x y => twoRegsText "AND" x y
  | .xor x y => twoRegsText "XOR" x y
  | .addReg x y => twoRegsText "ADD" x y
  | .sub x y => twoRegsText "SUB" x y
  | .shr x y => shiftText "SHR" x y
  | .subn x y => twoRegsText "SUBN" x y
  | .shl x y => shiftText "SHL" x y
  | .sneReg x y => twoRegsText "SNE" x y
  | .ldI nnn => "LD I, " ++ addrText nnn
  | .jpV0 nnn => "JP V0, " ++ addrText nnn
  | .rnd x kk => regByteText "RND" x kk
  | .drw x y n => twoRegsText "DRW" x y ++ ", " ++ hexText n
  | .skp x => "SKP " ++ regText x
  | .sknp x => "SKNP " ++ regText x
  | .ldVxDt x => "LD " ++ regText x ++ ", DT"
  | .ldVxK x => "LD " ++ regText x ++ ", K"
  | .ldDtVx x => "LD DT, " ++ regText x
  | .ldStVx x => "LD ST, " ++ regText x
  | .addI x => "ADD I, " ++ regText x
  | .ldF x => "LD F, " ++ regText x
  | .ldB x => "LD B, " ++ regText x
  | .ldMemVx x => "LD [I], " ++ regText x
  | .ldVxMem x => "LD " ++ regText x ++ ", [I]"

end Sys2Proof
end

