-- ==== Sys2Proof/Config.lean ====
section
/-! DEFINITION. The fixed parameters of 00_scope.md R5, the types of the open parameters of R6, and the
one free value of the machine, the random byte. -/

namespace Sys2Proof

/-- MEM_SIZE: addresses 0x000 to 0xFFF name one byte each (00_scope.md R5, 20_memory.md R50). -/
def Config.memSize : Nat := 0x1000

/-- FONT_LEN: the font fills 0x000 to 0x04F (00_scope.md R5). -/
def Config.fontLen : Nat := 80

/-- PROG_BASE: where the host loads the program image (00_scope.md R5, 70_reset_and_hazards.md R252). -/
def Config.progBase : Nat := 0x200

/-- STACK_DEPTH (00_scope.md R5). -/
def Config.stackDepth : Nat := 16

/-- `shl_flag_bit` of 00_scope.md R6: which bit of Vx 8xyE copies into VF. -/
inductive ShlFlagBit where
  /-- Bit 7, the standard value and the default. -/
  | bit7
  /-- Bit 0, the literal value of the original repository (90_conflicts.md C4). -/
  | bit0
  deriving DecidableEq, Repr

/-- `hex_digit_policy` of 00_scope.md R6: what Ex9E, ExA1 and Fx29 do when Vx is above 0x0F. -/
inductive HexDigitPolicy where
  /-- Raise HexDigitOutOfRange, the default. -/
  | fault
  /-- Use the low four bits of Vx. -/
  | mask
  deriving DecidableEq, Repr

/-- The `FONT` parameter: 80 sprite bytes, digit d at index 5·d (00_scope.md R6). -/
abbrev Font := Vector Byte 80

/-- The open parameters of 00_scope.md R6 that are fixed while the machine runs.
DESIGN CHOICE (notes/assumptions/3.md): "Each is a named argument of the model"; exec and step have no
argument for them, so State carries them, every statement may range over all their values, and no step
changes them. Safe. -/
structure Params where
  /-- Which bit 8xyE copies into VF (41_alu.md R141). -/
  shlFlagBit : ShlFlagBit
  /-- What a register value above 0x0F used as a key or digit does (44_timers_keys.md R205). -/
  hexDigitPolicy : HexDigitPolicy
  /-- Whether a store into 0x000 to 0x04F faults (20_memory.md R52). -/
  fontProtect : Bool
  /-- The font bytes that reset puts at 0x000 to 0x04F (70_reset_and_hazards.md R251). -/
  font : Font
  deriving DecidableEq, Repr

/-- The random bytes of 41_alu.md R142, "an 8-bit draw the model takes as a free input": draw k is the
k-th byte that an executed Cxkk consumes. A FREE VALUE with no body: nothing can be proved about it, so a
theorem holds for every random source. DESIGN CHOICE (notes/assumptions/4.md). Safe. -/
opaque Config.rnd : Nat → Byte

end Sys2Proof
end

