-- ==== Sys2Proof/Machine/ResetValues.lean ====
section
/-! DEFINITION. The values reset gives (10_state.md R32, 70_reset_and_hazards.md R250, R251) and the default
parameters (00_scope.md R6). -/

namespace Sys2Proof.Machine

/-- The conventional font, the default of `FONT` (70_reset_and_hazards.md R251): digit d at 5·d. -/
def defaultFont : Font := #v[
  0xF0, 0x90, 0x90, 0x90, 0xF0,  0x20, 0x60, 0x20, 0x20, 0x70,
  0xF0, 0x10, 0xF0, 0x80, 0xF0,  0xF0, 0x10, 0xF0, 0x10, 0xF0,
  0x90, 0x90, 0xF0, 0x10, 0x10,  0xF0, 0x80, 0xF0, 0x10, 0xF0,
  0xF0, 0x80, 0xF0, 0x90, 0xF0,  0xF0, 0x10, 0x20, 0x40, 0x40,
  0xF0, 0x90, 0xF0, 0x90, 0xF0,  0xF0, 0x90, 0xF0, 0x10, 0xF0,
  0xF0, 0x90, 0xF0, 0x90, 0x90,  0xE0, 0x90, 0xE0, 0x90, 0xE0,
  0xF0, 0x80, 0x80, 0x80, 0xF0,  0xE0, 0x90, 0x90, 0x90, 0xE0,
  0xF0, 0x80, 0xF0, 0x80, 0xF0,  0xF0, 0x80, 0xF0, 0x80, 0x80]

/-- The defaults of 00_scope.md R6: shl_flag_bit 7, hex_digit_policy fault, font_protect false, FONT the
table of R251. -/
def defaultParams : Params :=
  { shlFlagBit := .bit7, hexDigitPolicy := .fault, fontProtect := false, font := defaultFont }

/-- V0 to VF after reset (10_state.md R32, decision D3). -/
def resetV : Byte := 0x00
/-- I after reset (10_state.md R32, decision D3). -/
def resetI : Word := 0x0000
/-- PC after reset: the entry point (10_state.md R32, 70_reset_and_hazards.md R253, decision D2). -/
def resetPc : Word := 0x0200
/-- Every stack entry after reset (10_state.md R32, decision D3). -/
def resetStackEntry : Word := 0x0000
/-- SP after reset: empty (10_state.md R32, decision D3). -/
def resetSp : Fin 17 := 0
/-- DT and ST after reset (10_state.md R32, decision D3). -/
def resetTimer : Byte := 0x00
/-- Every pixel after reset: off (10_state.md R32, decision D3). -/
def resetPixel : Bool := false
/-- Every key after reset: up (10_state.md R32, decision D3). -/
def resetKey : Bool := false

end Sys2Proof.Machine
end

