-- ==== Sys2Proof/Machine/State.lean ====
section
/-! DEFINITION. The architectural state (10_state.md R20), the fault record (60_exceptions.md R220), the Step
outcomes (R233), the reasons a Step or a port stops, and the state after reset (R32). -/

namespace Sys2Proof.Machine

/-- The fault kinds of 60_exceptions.md R220, with their payloads. -/
inductive FaultKind where
  /-- Code 1. Raised by decode: the word matches no row (30_encoding.md R77). The spec's own fault; safe. -/
  | unknownOpcode (w : Word)
  /-- Code 2. Raised by fetch, DRW, LD_B, LD_MEM_VX, LD_VX_MEM: the lowest byte address at or above 0x1000
  that the access touched (20_memory.md R55, R56). The spec's own fault; safe. -/
  | outOfBoundsAddress (addr : Nat)
  /-- Code 3. Raised by CALL with 16 entries on the stack (40_control.md R100). The spec's own fault; safe. -/
  | stackOverflow
  /-- Code 4. Raised by RET with an empty stack (40_control.md R101). The spec's own fault; safe. -/
  | stackUnderflow
  /-- Code 5. Raised by SKP, SKNP, LD_F under the fault policy: Vx is above 0x0F (44_timers_keys.md R205).
  The spec's own fault; safe. -/
  | hexDigitOutOfRange (v : Byte)
  /-- Code 6. Raised by LD_B, LD_MEM_VX when font_protect is set: the lowest offending address
  (20_memory.md R56). The spec's own fault; safe. -/
  | protectedWrite (addr : Nat)
  deriving DecidableEq, Repr

/-- The fault record f = (kind, payload, pc), pc the fetch address of the Step that faulted
(60_exceptions.md R220). -/
structure FaultRecord where
  /-- Kind and payload. -/
  kind : FaultKind
  /-- The fetch address `a` of the faulting Step. -/
  pc : Word
  deriving DecidableEq, Repr

/-- What the core replies to the host at the end of a Step (60_exceptions.md R233). -/
inductive Reply where
  /-- `Executed(beep)`: one instruction completed and the timers ticked. -/
  | executed (beep : Bool)
  /-- `Waiting`: Fx0A found no key down. -/
  | waiting
  /-- `Faulted(f)`. -/
  | faulted (f : FaultRecord)
  deriving DecidableEq, Repr

/-- Why the machine stops. -/
inductive Fault where
  /-- Raised by step on a core whose `halt` is `some f`: the Step returns `Faulted(f)` and changes nothing
  (60_exceptions.md R224). The Step that raises f first is a next state with `halt` set. Safe
  (notes/assumptions/1.md). -/
  | halted (f : FaultRecord)
  deriving DecidableEq, Repr

/-- Why something has no meaning. Nothing that step runs answers one of these. -/
inductive Refusal where
  /-- Raised by an arm of exec for an instruction that has no meaning yet; no arm does. Safe. -/
  | notModelled (mnemonic : String)
  /-- Raised by the display port for coordinates outside 64 × 32 (43_display.md R181). The spec's own
  refusal; safe. -/
  | pixelOutOfRange (x y : Nat)
  /-- Raised by the load port for an image of more than 3584 bytes (70_reset_and_hazards.md R252). The
  spec's own refusal; safe. -/
  | imageTooLong (length : Nat)
  /-- Raised by the load port once the first Step has run (70_reset_and_hazards.md R252). The spec's own
  refusal; safe. -/
  | loadAfterStep
  deriving DecidableEq, Repr

/-- Memory: the cells whose byte differs from the reset contents, addresses strictly rising
(notes/assumptions/5.md). -/
abbrev Memory := List Host.Cell

/-- `gfx[x][y]`, x in 0..63, y in 0..31; true is on (10_state.md R28). -/
abbrev Gfx := Vector (Vector Bool 32) 64

/-- The state tuple of 10_state.md R20, the parameters of 00_scope.md R6, and the model's own `draws` and
`reply`. -/
structure State where
  /-- V0 to VF (R21). -/
  v : Vector Byte 16
  /-- The index register I (R23). -/
  i : Word
  /-- The program counter PC (R24). -/
  pc : Word
  /-- The return-address stack, stale entries kept (R26). -/
  stack : Vector Word 16
  /-- SP: the number of stack entries in use, 0 to 16 (R26). -/
  sp : Fin 17
  /-- The delay timer DT (R27). -/
  dt : Byte
  /-- The sound timer ST (R27). -/
  st : Byte
  /-- Memory (20_memory.md R50). -/
  mem : Memory
  /-- The graphics buffer (R28). -/
  gfx : Gfx
  /-- The key state, true is down; only the host writes it (R29). -/
  keys : Vector Bool 16
  /-- The halt record (R30). -/
  halt : Option FaultRecord
  /-- The open parameters (00_scope.md R6); no step changes them (notes/assumptions/3.md). -/
  params : Params
  /-- The model's own: how many random bytes have been consumed (41_alu.md R142, notes/assumptions/4.md). -/
  draws : Nat
  /-- The model's own: the reply of the last Step since reset, none before the first
  (60_exceptions.md R233, notes/assumptions/2.md). -/
  reply : Option Reply
  deriving DecidableEq, Repr

/-- What a Step, an instruction or a port answers. -/
abbrev Result := Host.Outcome State Fault Refusal

/-- The state after reset for given parameters (10_state.md R32, 70_reset_and_hazards.md R250). Memory lists
nothing, so it reads as FONT and then zeros. -/
def State.resetWith (p : Params) : State where
  v := Vector.replicate 16 resetV
  i := resetI
  pc := resetPc
  stack := Vector.replicate 16 resetStackEntry
  sp := resetSp
  dt := resetTimer
  st := resetTimer
  mem := []
  gfx := Vector.replicate 64 (Vector.replicate 32 resetPixel)
  keys := Vector.replicate 16 resetKey
  halt := none
  params := p
  draws := 0
  reply := none

/-- The machine right after reset, with the default parameters of 00_scope.md R6. -/
def State.reset : State := State.resetWith defaultParams

end Sys2Proof.Machine
end

