-- ==== Sys2Proof/Machine/Ops.lean ====
section
/-! DEFINITION. The named operations over the state: registers, memory, stack, skip, graphics, raising a
fault, completing, waiting, the timer tick and the fetch. -/

namespace Sys2Proof.Machine

/-! ### Registers (00_scope.md R9) -/

/-- `V[r]` (10_state.md R21). -/
def State.getV (s : State) (r : Nibble) : Byte := s.v[r.toNat]'r.isLt

/-- `V[r] <- b`. -/
def State.setV (s : State) (r : Nibble) (b : Byte) : State := { s with v := s.v.set r.toNat b r.isLt }

/-- VF (10_state.md R22). -/
def vf : Nibble := 0xF

/-- All of V0 to VF at once. -/
def State.setVs (s : State) (v : Vector Byte 16) : State := { s with v := v }

/-- `I <- w` (10_state.md R23). -/
def State.setI (s : State) (w : Word) : State := { s with i := w }

/-- `PC <- w`, no mask (10_state.md R24). -/
def State.setPc (s : State) (w : Word) : State := { s with pc := w }

/-- The stack entries and SP. -/
def State.setStack (s : State) (stack : Vector Word 16) (sp : Fin 17) : State :=
  { s with stack := stack, sp := sp }

/-- `DT <- b`. -/
def State.setDt (s : State) (b : Byte) : State := { s with dt := b }

/-- `ST <- b`. -/
def State.setSt (s : State) (b : Byte) : State := { s with st := b }

/-- Memory. -/
def State.setMem (s : State) (m : Memory) : State := { s with mem := m }

/-- The graphics buffer. -/
def State.setGfx (s : State) (g : Gfx) : State := { s with gfx := g }

/-- The halt record (10_state.md R30). -/
def State.setHalt (s : State) (f : Option FaultRecord) : State := { s with halt := f }

/-- The count of random bytes consumed. -/
def State.setDraws (s : State) (n : Nat) : State := { s with draws := n }

/-- The reply of the Step. -/
def State.setReply (s : State) (r : Reply) : State := { s with reply := some r }

/-! ### Completing, waiting and raising a fault (30_encoding.md R78; 60_exceptions.md R220 to R223) -/

/-- Execute returned `Done`. The tick that follows may turn the reply into `Executed(true)`. -/
def complete (s : State) : Result := .next (s.setReply (.executed false))

/-- The fetch address `a` inside Execute, where PC = a + 2 (00_scope.md R10). -/
def fetchAddr (s : State) : Word := s.pc - 2

/-- Execute returned `Waiting`: `PC <- a`, nothing else changes (44_timers_keys.md R208). -/
def wait (s : State) : Result := .next ((s.setPc (fetchAddr s)).setReply .waiting)

/-- Taking a fault raised in the Step that fetched at `a`: `halt <- some f` with f = (kind, payload, a), and
the Step returns `Faulted(f)`; every other component keeps its value (R221, R223). -/
def haltWith (kind : FaultKind) (a : Word) (s : State) : State :=
  (s.setHalt (some ⟨kind, a⟩)).setReply (.faulted ⟨kind, a⟩)

/-- `raise` inside Execute: PC stays a + 2 (R222). -/
def raise (kind : FaultKind) (s : State) : Result := .next (haltWith kind (fetchAddr s) s)

/-- The numeric fault codes of 60_exceptions.md R220. -/
def faultCode : FaultKind → Nat
  | .unknownOpcode _ => 1
  | .outOfBoundsAddress _ => 2
  | .stackOverflow => 3
  | .stackUnderflow => 4
  | .hexDigitOutOfRange _ => 5
  | .protectedWrite _ => 6

/-! ### Memory cells -/

/-- What an unlisted address reads as: the reset contents, FONT at 0x000 to 0x04F and 0x00 elsewhere
(10_state.md R32, 70_reset_and_hazards.md R250). -/
def Memory.unlisted (font : Font) (a : Nat) : Byte := font.toList.getD a 0x00

/-- The listed byte at an address. -/
def Memory.lookup : Memory → Nat → Option Byte
  | [], _ => none
  | c :: m, a => if c.1 = a then some c.2 else Memory.lookup m a

/-- `mem[a]`. -/
def Memory.read (font : Font) (m : Memory) (a : Nat) : Byte := (Memory.lookup m a).getD (Memory.unlisted font a)

/-- List a byte at its place in the order. -/
def Memory.insert (a : Nat) (b : Byte) : Memory → Memory
  | [] => [(a, b)]
  | c :: m =>
    if a < c.1 then (a, b) :: c :: m
    else if c.1 = a then (a, b) :: m
    else c :: Memory.insert a b m

/-- Take an address off the list. -/
def Memory.remove (a : Nat) (m : Memory) : Memory := m.filter (fun c => c.1 != a)

/-- `mem[a] <- b`, keeping the canonical form: a byte that equals the reset contents is not listed. -/
def Memory.write (font : Font) (m : Memory) (a : Nat) (b : Byte) : Memory :=
  if b = Memory.unlisted font a then Memory.remove a m else Memory.insert a b m

/-- `mem[a + k] <- bytes[k]` for every k, lowest address first. -/
def Memory.writeBytes (font : Font) : Memory → Nat → List Byte → Memory
  | m, _, [] => m
  | m, a, b :: bs => Memory.writeBytes font (Memory.write font m a b) (a + 1) bs

/-- The canonical form: addresses strictly rising, each inside memory, no entry equal to what an unlisted
address reads as. -/
abbrev Memory.wf (font : Font) (m : Memory) : Prop :=
  m.Pairwise (fun c d => c.1 < d.1) ∧ ∀ c ∈ m, c.1 < Config.memSize ∧ c.2 ≠ Memory.unlisted font c.1

/-- The byte of the state's memory at an address. -/
def State.byte (s : State) (a : Nat) : Byte := Memory.read s.params.font s.mem a

/-! ### Memory accesses (20_memory.md R51 to R56) -/

/-- The lowest of the n addresses from `addr` that is outside memory. -/
def firstOutOfBounds (addr : Nat) : Nat → Option Nat
  | 0 => none
  | n + 1 => if 0x0FFF < addr then some addr else firstOutOfBounds (addr + 1) n

/-- The bytes at addr .. addr+n-1, lowest address first. -/
def State.bytes (s : State) (addr n : Nat) : List Byte := (List.range n).map (fun k => s.byte (addr + k))

/-- `MemRead(addr, n)` (R55): every address is checked before any byte is returned. The bytes are given
lowest address first. -/
def memRead (s : State) (addr n : Nat) : Except FaultKind (List Byte) :=
  match firstOutOfBounds addr n with
  | some bad => .error (.outOfBoundsAddress bad)
  | none => .ok (s.bytes addr n)

/-- The first check that fails among the n bytes from `addr`, lowest address first and the bound before the
font protection (R56, 60_exceptions.md R225). -/
def firstWriteFault (fontProtect : Bool) (addr : Nat) : Nat → Option FaultKind
  | 0 => none
  | n + 1 =>
    if 0x0FFF < addr then some (.outOfBoundsAddress addr)
    else if fontProtect && decide (addr ≤ 0x004F) then some (.protectedWrite addr)
    else firstWriteFault fontProtect (addr + 1) n

/-- `MemWrite(addr, n, v)` with v given as its n bytes, lowest address first (R56): every check precedes the
first write. -/
def memWrite (s : State) (addr : Nat) (bytes : List Byte) : Except FaultKind State :=
  match firstWriteFault s.params.fontProtect addr bytes.length with
  | some k => .error k
  | none => .ok (s.setMem (Memory.writeBytes s.params.font s.mem addr bytes))

/-- `ReadWord(addr)` (R53): the byte at addr is bits 15:8; addr + 1 is computed without wrap. -/
def readWord (s : State) (addr : Nat) : Except FaultKind Word :=
  match firstOutOfBounds addr 2 with
  | some bad => .error (.outOfBoundsAddress bad)
  | none => .ok (bigEndian (s.byte addr) (s.byte (addr + 1)))

/-- `WriteWord(addr, v)` (R54): no instruction performs it; the host may. -/
def writeWord (s : State) (addr : Nat) (v : Word) : Except FaultKind State :=
  memWrite s addr [highByte v, lowByte v]

/-! ### Stack (40_control.md R100, R101) and skip (R102) -/

/-- `Push(v)`. -/
def push (v : Word) (s : State) : Except FaultKind State :=
  if h : s.sp.val < 16 then
    .ok (s.setStack (s.stack.set s.sp.val v h) ⟨s.sp.val + 1, Nat.succ_lt_succ h⟩)
  else .error .stackOverflow

/-- `Pop()`: the popped address and the state with SP decremented; the entry is not cleared. -/
def pop (s : State) : Except FaultKind (Word × State) :=
  match s.sp with
  | ⟨0, _⟩ => .error .stackUnderflow
  | ⟨n + 1, h⟩ =>
    .ok (s.stack[n]'(Nat.lt_of_succ_lt_succ h), s.setStack s.stack ⟨n, Nat.lt_of_succ_lt h⟩)

/-- `Skip()`: PC was a + 2 and becomes a + 4. -/
def skip (s : State) : State := s.setPc (s.pc + 2)

/-- A skip instruction: skip where the condition holds, then complete. -/
def skipIf (c : Bool) (s : State) : Result := complete (if c then skip s else s)

/-! ### Graphics buffer (43_display.md R180, R183) -/

/-- `Pixel(x, y)`. -/
def pixel (g : Gfx) (x : Fin 64) (y : Fin 32) : Bool := g[x][y]

/-- One cell of the buffer given a value. -/
def putPixel (g : Gfx) (x : Fin 64) (y : Fin 32) (b : Bool) : Gfx :=
  g.set x.val (g[x].set y.val b y.isLt) x.isLt

/-- `SetPixel(x, y)`. -/
def setPixel (g : Gfx) (x : Fin 64) (y : Fin 32) : Gfx := putPixel g x y true

/-- `ClearPixel(x, y)`. -/
def clearPixel (g : Gfx) (x : Fin 64) (y : Fin 32) : Gfx := putPixel g x y false

/-- `ClearAll()`. -/
def clearAll : Gfx := Vector.replicate 64 (Vector.replicate 32 false)

/-- One 1 bit of a sprite: an on pixel goes off and is a hit, an off pixel goes on. -/
def plot (x : Fin 64) (y : Fin 32) (acc : Gfx × Bool) : Gfx × Bool :=
  if pixel acc.1 x y then (clearPixel acc.1 x y, true) else (setPixel acc.1 x y, acc.2)

/-- `(x0 + c) mod 64`: a column wrapped at the right edge. -/
def wrapX (n : Nat) : Fin 64 := ⟨n % 64, Nat.mod_lt n (by decide)⟩

/-- `(y0 + r) mod 32`: a line wrapped at the bottom edge. -/
def wrapY (n : Nat) : Fin 32 := ⟨n % 32, Nat.mod_lt n (by decide)⟩

/-- One sprite row: columns 0 to 7, bit 7 leftmost, the column wrapped modulo 64. -/
def drawRow (x0 : Nat) (py : Fin 32) (row : Byte) (acc : Gfx × Bool) : Gfx × Bool :=
  (List.range 8).foldl
    (fun acc c => if row.getLsbD (7 - c) then plot (wrapX (x0 + c)) py acc else acc) acc

/-- The sprite rows from row number r on, the row's line wrapped modulo 32. -/
def drawRows (x0 y0 : Nat) : Nat → List Byte → Gfx × Bool → Gfx × Bool
  | _, [], acc => acc
  | r, row :: rows, acc => drawRows x0 y0 (r + 1) rows (drawRow x0 (wrapY (y0 + r)) row acc)

/-! ### Timers (44_timers_keys.md R200, R201) -/

/-- A timer's decrement: at 0 it stays at 0. -/
def tickDown (b : Byte) : Byte := if b = 0 then 0 else b - 1

/-- `Tick()`: both timers count down; the Step's beep is emitted when ST was exactly 1. -/
def tick (s : State) : State :=
  ((s.setDt (tickDown s.dt)).setSt (tickDown s.st)).setReply (.executed (s.st == 1))

/-- The end of a Step after Execute: the tick when Execute returned `Done`, nothing after `Waiting` or a
fault (30_encoding.md R79). -/
def finish (s : State) : State :=
  match s.reply with
  | some (.executed _) => tick s
  | _ => s

/-! ### Fetch and advance (30_encoding.md R74, R75) -/

/-- `w <- MemRead(PC, 2)`. -/
def fetch (s : State) : Except FaultKind Word := readWord s s.pc.toNat

/-- `PC <- a + 2`. -/
def advance (s : State) : State := s.setPc (s.pc + 2)

/-- The state with an instruction's word stored where the next Step fetches, and running. It stands for the
host having loaded the word (notes/assumptions/6.md). Where PC names no word of memory nothing is stored. -/
def placeWord (s : State) (w : Word) : State :=
  if s.pc.toNat ≤ 0x0FFE then
    (s.setMem (Memory.writeBytes s.params.font s.mem s.pc.toNat [highByte w, lowByte w])).setHalt none
  else s

end Sys2Proof.Machine
end

