-- ==== Sys2Proof/Machine/Operands.lean ====
section
/-! DEFINITION. The operand forms: a register used as a key or digit, the key state, the font address, the
effective address, the register block V0 to Vx, and the random byte. -/

namespace Sys2Proof.Machine

/-- `HexDigit(v)` (44_timers_keys.md R205). -/
def hexDigit (policy : HexDigitPolicy) (v : Byte) : Except FaultKind Nibble :=
  if v.toNat ≤ 0x0F then .ok (v.setWidth 4)
  else match policy with
    | .mask => .ok ((v &&& 0x0F).setWidth 4)
    | .fault => .error (.hexDigitOutOfRange v)

/-- `Key(k)`: the key state as the host left it before the Step (44_timers_keys.md R209). -/
def State.key (s : State) (k : Nibble) : Bool := s.keys[k.toNat]'k.isLt

/-- `min { k | Key(k) }`, none when every key is up (44_timers_keys.md R208). -/
def lowestKey (s : State) : Option Nat := s.keys.toList.findIdx? id

/-- The font address of a digit, 5·d (42_index_memory.md R162). -/
def fontAddr (d : Nibble) : Word := BitVec.ofNat 16 (5 * d.toNat)

/-- The address operand of an I-relative access, an unbounded number (42_index_memory.md R166, R167). -/
def State.ea (s : State) : Nat := s.i.toNat

/-- How many registers V0 to Vx are (42_index_memory.md R164, R165). -/
def blockLength (x : Nibble) : Nat := x.toNat + 1

/-- `V[0] ++ V[1] ++ ... ++ V[x]`, V0 first (42_index_memory.md R164). -/
def State.block (s : State) (x : Nibble) : List Byte := s.v.toList.take (blockLength x)

/-- `V[k + i] <- bytes[i]` for every i (42_index_memory.md R165, with k = 0). -/
def loadBlock : Nat → List Byte → Vector Byte 16 → Vector Byte 16
  | _, [], v => v
  | k, b :: bs, v => loadBlock (k + 1) bs (v.setIfInBounds k b)

/-- `zext_16(nnn)` (30_encoding.md R71). -/
def zextAddr (nnn : Addr) : Word := nnn.setWidth 16

/-- `zext_16(v)` (00_scope.md R8). -/
def zextByte (b : Byte) : Word := b.setWidth 16

/-- `Rnd()`: the next byte of the free random source (41_alu.md R142). -/
def State.nextRnd (s : State) : Byte := Config.rnd s.draws

/-- The draw consumed. -/
def consumeRnd (s : State) : State := s.setDraws (s.draws + 1)

end Sys2Proof.Machine
end

