-- ==== Sys2Proof/Machine/Flags.lean ====
section
/-! DEFINITION. The flag values of 10_state.md R22 and the shared shape of a flag-writing instruction (41_alu.md
R130). -/

namespace Sys2Proof.Machine

/-- A flag value: 0x01 or 0x00 (10_state.md R22). -/
def flagByte (b : Bool) : Byte := if b then 0x01 else 0x00

/-- 8xy4: the carry out of bit 7, set exactly when the sum of the two bytes exceeds 255 (41_alu.md R137). -/
def carryFlag (vx vy : Byte) : Byte := flagByte (decide (255 < vx.toNat + vy.toNat))

/-- 8xy5 and, with the operands exchanged, 8xy7: set exactly when a > b, so clear where they are equal
(41_alu.md R138, R140; 90_conflicts.md C3). -/
def greaterFlag (a b : Byte) : Byte := flagByte (decide (b.toNat < a.toNat))

/-- 8xy6: the old bit 0 (41_alu.md R139). -/
def shrFlag (vx : Byte) : Byte := flagByte (vx.getLsbD 0)

/-- The bit number `shl_flag_bit` names (00_scope.md R6). -/
def shlFlagIndex : ShlFlagBit → Nat
  | .bit7 => 7
  | .bit0 => 0

/-- 8xyE: the old bit `shl_flag_bit` (41_alu.md R141). -/
def shlFlag (which : ShlFlagBit) (vx : Byte) : Byte := flagByte (vx.getLsbD (shlFlagIndex which))

/-- Dxyn: set when some pixel went from on to off (43_display.md R183). -/
def collisionFlag (hit : Bool) : Byte := flagByte hit

/-- Result first, flag last (41_alu.md R130): with x = 0xF the flag survives. -/
def writeResultAndFlag (x : Nibble) (result flag : Byte) (s : State) : State :=
  (s.setV x result).setV vf flag

end Sys2Proof.Machine
end

