-- ==== Sys2Proof/Machine/Alu.lean ====
section
/-! DEFINITION. Register loads, arithmetic, logic, shifts and the random byte (41_alu.md). -/

namespace Sys2Proof.Machine

/-- LD Vx, kk (6xkk) (41_alu.md R131). -/
def execLdImm (x : Nibble) (kk : Byte) (s : State) : Result := complete (s.setV x kk)

/-- ADD Vx, kk (7xkk): modulo 256, no flag (41_alu.md R132). -/
def execAddImm (x : Nibble) (kk : Byte) (s : State) : Result := complete (s.setV x (s.getV x + kk))

/-- LD Vx, Vy (8xy0) (41_alu.md R133). -/
def execLdReg (x y : Nibble) (s : State) : Result := complete (s.setV x (s.getV y))

/-- OR Vx, Vy (8xy1): no flag (41_alu.md R134). -/
def execOr (x y : Nibble) (s : State) : Result := complete (s.setV x (s.getV x ||| s.getV y))

/-- AND Vx, Vy (8xy2): no flag (41_alu.md R135). -/
def execAnd (x y : Nibble) (s : State) : Result := complete (s.setV x (s.getV x &&& s.getV y))

/-- XOR Vx, Vy (8xy3): no flag (41_alu.md R136). -/
def execXor (x y : Nibble) (s : State) : Result := complete (s.setV x (s.getV x ^^^ s.getV y))

/-- ADD Vx, Vy (8xy4) with the carry in VF (41_alu.md R137, R130). -/
def execAddReg (x y : Nibble) (s : State) : Result :=
  complete (writeResultAndFlag x (s.getV x + s.getV y) (carryFlag (s.getV x) (s.getV y)) s)

/-- SUB Vx, Vy (8xy5): Vx - Vy, VF = 1 iff Vx > Vy (41_alu.md R138, R130). -/
def execSub (x y : Nibble) (s : State) : Result :=
  complete (writeResultAndFlag x (s.getV x - s.getV y) (greaterFlag (s.getV x) (s.getV y)) s)

/-- SHR Vx (8xy6): logical, y ignored (41_alu.md R139, R130). -/
def execShr (x _y : Nibble) (s : State) : Result :=
  complete (writeResultAndFlag x (s.getV x >>> 1) (shrFlag (s.getV x)) s)

/-- SUBN Vx, Vy (8xy7): Vy - Vx, VF = 1 iff Vy > Vx (41_alu.md R140, R130). -/
def execSubn (x y : Nibble) (s : State) : Result :=
  complete (writeResultAndFlag x (s.getV y - s.getV x) (greaterFlag (s.getV y) (s.getV x)) s)

/-- SHL Vx (8xyE): y ignored, VF = the old bit `shl_flag_bit` (41_alu.md R141, R130). -/
def execShl (x _y : Nibble) (s : State) : Result :=
  complete (writeResultAndFlag x (s.getV x <<< 1) (shlFlag s.params.shlFlagBit (s.getV x)) s)

/-- RND Vx, kk (Cxkk): the random byte AND kk, one draw consumed (41_alu.md R142). -/
def execRnd (x : Nibble) (kk : Byte) (s : State) : Result :=
  complete ((consumeRnd s).setV x (s.nextRnd &&& kk))

end Sys2Proof.Machine
end

