-- ==== Sys2Proof/Machine/Control.lean ====
section
/-! DEFINITION. Control transfer: RET, JP, CALL, SE, SNE, JP V0 (40_control.md). On entry PC = a + 2. -/

namespace Sys2Proof.Machine

/-- RET (00EE): `PC <- Pop()` (40_control.md R103). -/
def execRet (s : State) : Result :=
  match pop s with
  | .error k => raise k s
  | .ok (target, s') => complete (s'.setPc target)

/-- JP nnn (1nnn) (40_control.md R104). -/
def execJp (nnn : Addr) (s : State) : Result := complete (s.setPc (zextAddr nnn))

/-- CALL nnn (2nnn): push PC = a + 2, then jump (40_control.md R105). -/
def execCall (nnn : Addr) (s : State) : Result :=
  match push s.pc s with
  | .error k => raise k s
  | .ok s' => complete (s'.setPc (zextAddr nnn))

/-- SE Vx, kk (3xkk) (40_control.md R106). -/
def execSeImm (x : Nibble) (kk : Byte) (s : State) : Result := skipIf (s.getV x == kk) s

/-- SNE Vx, kk (4xkk) (40_control.md R107). -/
def execSneImm (x : Nibble) (kk : Byte) (s : State) : Result := skipIf (s.getV x != kk) s

/-- SE Vx, Vy (5xy0) (40_control.md R108). -/
def execSeReg (x y : Nibble) (s : State) : Result := skipIf (s.getV x == s.getV y) s

/-- SNE Vx, Vy (9xy0) (40_control.md R109). -/
def execSneReg (x y : Nibble) (s : State) : Result := skipIf (s.getV x != s.getV y) s

/-- JP V0, nnn (Bnnn): nnn + V0, no mask (40_control.md R110). -/
def execJpV0 (nnn : Addr) (s : State) : Result :=
  complete (s.setPc (zextAddr nnn + zextByte (s.getV 0)))

end Sys2Proof.Machine
end

