-- ==== Sys2Proof/Machine/Display.lean ====
section
/-! DEFINITION. CLS and DRW (43_display.md). -/

namespace Sys2Proof.Machine

/-- CLS (00E0) (43_display.md R182). -/
def execCls (s : State) : Result := complete (s.setGfx clearAll)

/-- `x0 <- V[x] mod 64`. -/
def spriteX (x : Nibble) (s : State) : Nat := (s.getV x).toNat % 64

/-- `y0 <- V[y] mod 32`. -/
def spriteY (y : Nibble) (s : State) : Nat := (s.getV y).toNat % 32

/-- The buffer and the hit after drawing the sprite bytes at the registers' coordinates. -/
def drawSprite (x y : Nibble) (bytes : List Byte) (s : State) : Gfx × Bool :=
  drawRows (spriteX x s) (spriteY y s) 0 bytes (s.gfx, false)

/-- DRW Vx, Vy, n (Dxyn): n = 0 reads and draws nothing; otherwise the whole sprite is read before any pixel
changes, and VF is written last (43_display.md R183). -/
def execDrw (x y n : Nibble) (s : State) : Result :=
  if n = 0 then complete (s.setV vf 0x00)
  else
    match memRead s s.ea n.toNat with
    | .error k => raise k s
    | .ok bytes =>
      let drawn := drawSprite x y bytes s
      complete ((s.setGfx drawn.1).setV vf (collisionFlag drawn.2))

end Sys2Proof.Machine
end

