-- ==== Sys2Proof/Machine/IndexMemory.lean ====
section
/-! DEFINITION. The index register, the font address, BCD, and the register block store and load
(42_index_memory.md). None writes VF as a flag and none moves I by accessing memory. -/

namespace Sys2Proof.Machine

/-- LD I, nnn (Annn) (42_index_memory.md R160). -/
def execLdI (nnn : Addr) (s : State) : Result := complete (s.setI (zextAddr nnn))

/-- ADD I, Vx (Fx1E): modulo 2^16, VF unchanged (42_index_memory.md R161). -/
def execAddI (x : Nibble) (s : State) : Result := complete (s.setI (s.i + zextByte (s.getV x)))

/-- LD F, Vx (Fx29): I <- 5·d (42_index_memory.md R162). -/
def execLdF (x : Nibble) (s : State) : Result :=
  match hexDigit s.params.hexDigitPolicy (s.getV x) with
  | .error k => raise k s
  | .ok d => complete (s.setI (fontAddr d))

/-- Hundreds, tens and units of a byte (42_index_memory.md R163). -/
def bcdDigits (v : Byte) : List Byte :=
  [BitVec.ofNat 8 (v.toNat / 100), BitVec.ofNat 8 (v.toNat / 10 % 10), BitVec.ofNat 8 (v.toNat % 10)]

/-- LD B, Vx (Fx33): the BCD digits at I, I+1, I+2 (42_index_memory.md R163). -/
def execLdB (x : Nibble) (s : State) : Result :=
  match memWrite s s.ea (bcdDigits (s.getV x)) with
  | .error k => raise k s
  | .ok s' => complete s'

/-- LD [I], Vx (Fx55): V0 to Vx at I .. I+x (42_index_memory.md R164). -/
def execLdMemVx (x : Nibble) (s : State) : Result :=
  match memWrite s s.ea (s.block x) with
  | .error k => raise k s
  | .ok s' => complete s'

/-- LD Vx, [I] (Fx65): V0 to Vx from I .. I+x (42_index_memory.md R165). -/
def execLdVxMem (x : Nibble) (s : State) : Result :=
  match memRead s s.ea (blockLength x) with
  | .error k => raise k s
  | .ok bytes => complete (s.setVs (loadBlock 0 bytes s.v))

end Sys2Proof.Machine
end

