-- ==== Sys2Proof/Machine/TimersKeys.lean ====
section
/-! DEFINITION. Timer and key instructions (44_timers_keys.md). -/

namespace Sys2Proof.Machine

/-- LD Vx, DT (Fx07): DT before this Step's tick (44_timers_keys.md R202). -/
def execLdVxDt (x : Nibble) (s : State) : Result := complete (s.setV x s.dt)

/-- LD DT, Vx (Fx15); the same Step's tick then counts it down (44_timers_keys.md R203). -/
def execLdDtVx (x : Nibble) (s : State) : Result := complete (s.setDt (s.getV x))

/-- LD ST, Vx (Fx18); the same Step's tick then counts it down (44_timers_keys.md R204). -/
def execLdStVx (x : Nibble) (s : State) : Result := complete (s.setSt (s.getV x))

/-- SKP Vx (Ex9E) (44_timers_keys.md R206). -/
def execSkp (x : Nibble) (s : State) : Result :=
  match hexDigit s.params.hexDigitPolicy (s.getV x) with
  | .error k => raise k s
  | .ok d => skipIf (s.key d) s

/-- SKNP Vx (ExA1) (44_timers_keys.md R207). -/
def execSknp (x : Nibble) (s : State) : Result :=
  match hexDigit s.params.hexDigitPolicy (s.getV x) with
  | .error k => raise k s
  | .ok d => skipIf (!s.key d) s

/-- LD Vx, K (Fx0A): the lowest key that is down, or wait (44_timers_keys.md R208). -/
def execLdVxK (x : Nibble) (s : State) : Result :=
  match lowestKey s with
  | some k => complete (s.setV x (BitVec.ofNat 8 k))
  | none => wait s

end Sys2Proof.Machine
end

