-- ==== Sys2Proof/Machine/Step.lean ====
section
/-! DEFINITION. The Step transaction of 30_encoding.md R73. -/

namespace Sys2Proof.Machine

/-- `Step()` (30_encoding.md R73): a halted core answers `Faulted(f)` and changes nothing (60_exceptions.md
R224); otherwise fetch (R74), advance (R75), decode (R76, R77), execute (R78) and, when the instruction
completed, tick (R79). A fault raised in this Step is a next state with `halt` set (60_exceptions.md R223);
after a fetch fault PC is still a (R222). -/
def step (s : State) : Host.Outcome State Fault Refusal :=
  match s.halt with
  | some f => .fault (.halted f)
  | none =>
    match fetch s with
    | .error k => .next (haltWith k s.pc s)
    | .ok w =>
      match decode w with
      | .error _ => raise (.unknownOpcode w) (advance s)
      | .ok i =>
        match exec i (advance s) with
        | .next s' => .next (finish s')
        | .fault f => .fault f
        | .refused r => .refused r

/-- The state with the table's word placed where the next Step fetches. -/
def State.withFetchWord (s : State) (nbits w : Nat) : State := placeWord s (tableWord nbits w)

end Sys2Proof.Machine
end

