-- ==== Sys2Proof/Machine/Ports.lean ====
section
/-! DEFINITION. The host's side of the core's interface (60_exceptions.md R230): what the host does between
Steps. The `step` port is `step`, the `beep` port is `reply = some (executed true)`, the `rnd` port is
Config.rnd. -/

namespace Sys2Proof.Machine

/-- The `reset` port (70_reset_and_hazards.md R250): every component at its reset value. The parameters are
the machine's own and stay; the random source is outside the core and goes on. -/
def portReset (s : State) : State := (State.resetWith s.params).setDraws s.draws

/-- The `keys` port: the host writes the key state between Steps (44_timers_keys.md R209). -/
def portSetKeys (keys : Vector Bool 16) (s : State) : State := { s with keys := keys }

/-- The `display` port: `GetPixel(x, y)`, refusing coordinates outside the buffer (43_display.md R181). -/
def portGetPixel (s : State) (x y : Nat) : Except Refusal Bool :=
  if h : x < 64 ∧ y < 32 then .ok (pixel s.gfx ⟨x, h.1⟩ ⟨y, h.2⟩) else .error (.pixelOutOfRange x y)

/-- The most bytes an image may have: 0x1000 - 0x200 = 3584 (70_reset_and_hazards.md R252). -/
def maxImage : Nat := Config.memSize - Config.progBase

/-- The `load` port: `mem[0x200 + i] <- b[i]` before the first Step; an image that is too long is refused
whole, and so is a load once a Step has run (70_reset_and_hazards.md R252).
DESIGN CHOICE (notes/assumptions/11.md): a second load before the first Step is accepted and leaves the bytes
that an earlier image put beyond the new one, a point R252 leaves open. Unsafe. -/
def portLoad (image : List Byte) (s : State) : Result :=
  if s.reply ≠ none then .refused .loadAfterStep
  else if maxImage < image.length then .refused (.imageTooLong image.length)
  else .next (s.setMem (Memory.writeBytes s.params.font s.mem Config.progBase image))

/-- The host's boot sequence up to the first Step: reset, load, initial keys (70_reset_and_hazards.md R254). -/
def portBoot (p : Params) (image : List Byte) (keys : Vector Bool 16) : Result :=
  match portLoad image (State.resetWith p) with
  | .next s => .next (portSetKeys keys s)
  | .fault f => .fault f
  | .refused r => .refused r

end Sys2Proof.Machine
end

