-- ==== Sys2Proof/Safety.lean ====
section
/-! DEFINITION. The terms claims are stated in: the invariants of the machine, the end of a run (70_reset_and_hazards.md
R260), and what "changes only" means (the frames). -/

namespace Sys2Proof.Machine

/-! ### Invariants -/

/-- The state's memory is in canonical form. -/
abbrev State.MemWf (s : State) : Prop := Memory.wf s.params.font s.mem

/-- What 10_state.md R25, 40_control.md R103, R105 and R110 say of reachable addresses: PC is at most 0x10FE
and every stack entry at most 0x1000. -/
def State.PcBounded (s : State) : Prop :=
  s.pc.toNat ≤ 0x10FE ∧ ∀ k : Fin 16, s.stack[k].toNat ≤ 0x1000

/-- A core is halted by f exactly when its last Step replied `Faulted(f)` (60_exceptions.md R223, R224). -/
def State.HaltAgrees (s : State) : Prop := ∀ f, s.halt = some f ↔ s.reply = some (.faulted f)

/-- The invariants together. -/
def State.Inv (s : State) : Prop := s.MemWf ∧ s.PcBounded ∧ s.HaltAgrees

/-! ### Reset -/

/-- Every component of 10_state.md R20 has its reset value under the parameters p (R32,
70_reset_and_hazards.md R250). -/
def State.AfterReset (p : Params) (t : State) : Prop :=
  (∀ r, t.getV r = 0) ∧ t.i = 0 ∧ t.pc = 0x0200 ∧ t.sp = 0 ∧ (∀ k : Fin 16, t.stack[k] = 0) ∧ t.dt = 0 ∧
    t.st = 0 ∧ (∀ (a : Nat) (h : a < 80), t.byte a = p.font[a]) ∧ (∀ a : Nat, 80 ≤ a → t.byte a = 0) ∧
    (∀ cx cy, pixel t.gfx cx cy = false) ∧ (∀ k, t.key k = false) ∧ t.halt = none ∧ t.params = p

/-! ### The end of a run (70_reset_and_hazards.md R260) -/

/-- A run has ended by a fault. -/
def State.faulted (s : State) : Bool := s.halt.isSome

/-- A run is parked: the core is about to fetch the self-jump `JP a` at PC = a with a ≤ 0x0FFE. -/
def State.parked (s : State) : Bool :=
  s.halt.isNone && decide (s.pc.toNat ≤ 0x0FFE) &&
    (bigEndian (s.byte s.pc.toNat) (s.byte (s.pc.toNat + 1)) == (0x1000#16 ||| s.pc))

/-- The run has ended. -/
def State.runEnded (s : State) : Bool := s.faulted || s.parked

/-! ### Frames -/

/-- The components of the state of 10_state.md R20, the parameters, and the count of random draws. The
reply is not a component: every Step writes it. -/
inductive Part where
  /-- V0 to VF. -/
  | v
  /-- I. -/
  | i
  /-- PC. -/
  | pc
  /-- The stack entries and SP. -/
  | stack
  /-- DT. -/
  | dt
  /-- ST. -/
  | st
  /-- Every byte of memory. -/
  | mem
  /-- Every pixel. -/
  | gfx
  /-- The key state. -/
  | keys
  /-- The halt record. -/
  | halt
  /-- The parameters. -/
  | params
  /-- The count of random bytes consumed. -/
  | draws
  deriving DecidableEq, Repr

/-- A component has the same value in both states; memory is compared byte by byte through the model's
read. -/
def Unchanged (s t : State) : Part → Prop
  | .v => t.v = s.v
  | .i => t.i = s.i
  | .pc => t.pc = s.pc
  | .stack => t.stack = s.stack ∧ t.sp = s.sp
  | .dt => t.dt = s.dt
  | .st => t.st = s.st
  | .mem => ∀ a : Nat, t.byte a = s.byte a
  | .gfx => t.gfx = s.gfx
  | .keys => t.keys = s.keys
  | .halt => t.halt = s.halt
  | .params => t.params = s.params
  | .draws => t.draws = s.draws

/-- Every component outside the list has the same value in both states. -/
def OnlyChanges (parts : List Part) (s t : State) : Prop := ∀ p, p ∉ parts → Unchanged s t p

/-- Every general register outside the list has the same value in both states. -/
def VExcept (regs : List Nibble) (s t : State) : Prop := ∀ r, r ∉ regs → t.getV r = s.getV r

/-- Every byte of memory outside addr .. addr+len-1 reads the same in both states. -/
def MemExcept (addr len : Nat) (s t : State) : Prop :=
  ∀ a : Nat, a < addr ∨ addr + len ≤ a → t.byte a = s.byte a

/-- The instruction completed: Execute returned `Done` and the Step will tick (30_encoding.md R78, R79; that
the reply carries it is the model's form, notes/assumptions/2.md). -/
def Completed (t : State) : Prop := t.reply = some (.executed false)

/-- The state took the fault `kind` raised by the instruction fetched at PC - 2: nothing but `halt` (and the
reply) changed, so PC is still a + 2 (60_exceptions.md R221, R222, R223, decisions D7 and D30; that it is a next state
is the model's form, notes/assumptions/1.md). -/
def TookFault (kind : FaultKind) (s t : State) : Prop :=
  t.halt = some ⟨kind, s.pc - 2⟩ ∧ t.reply = some (.faulted ⟨kind, s.pc - 2⟩) ∧ OnlyChanges [.halt] s t

/-! ### Faults (60_exceptions.md R220) -/

/-- How many bytes of memory an instruction accesses from I on: n for Dxyn, 3 for Fx33, x + 1 for Fx55 and Fx65,
none for any other (42_index_memory.md R166). -/
def accessLength : Instr → Nat
  | .drw _ _ n => n.toNat
  | .ldB _ => 3
  | .ldMemVx x | .ldVxMem x => blockLength x
  | .cls | .ret | .jp _ | .call _ | .seImm _ _ | .sneImm _ _ | .seReg _ _ | .ldImm _ _ | .addImm _ _
  | .ldReg _ _ | .or _ _ | .and _ _ | .xor _ _ | .addReg _ _ | .sub _ _ | .shr _ _ | .subn _ _ | .shl _ _
  | .sneReg _ _ | .ldI _ | .jpV0 _ | .rnd _ _ | .skp _ | .sknp _ | .ldVxDt _ | .ldVxK _ | .ldDtVx _
  | .ldStVx _ | .addI _ | .ldF _ => 0

/-- `a` is the lowest address of the instruction's access for which `bad` holds. -/
def LowestOffending (i : Instr) (s : State) (bad : Nat → Prop) (a : Nat) : Prop :=
  s.ea ≤ a ∧ a < s.ea + accessLength i ∧ bad a ∧ ∀ b, s.ea ≤ b → b < a → ¬ bad b

/-- What may raise each fault kind inside Execute, when, and with which payload: the columns "raised by",
"condition" and "payload" of 60_exceptions.md R220. UnknownOpcode is decode's alone; an instruction that accesses
no memory has no offending address. -/
def mayRaise (i : Instr) (s : State) : FaultKind → Prop
  | .unknownOpcode _ => False
  | .outOfBoundsAddress a => LowestOffending i s (0x1000 ≤ ·) a
  | .stackOverflow => s.sp.val = 16 ∧ ∃ nnn, i = .call nnn
  | .stackUnderflow => s.sp.val = 0 ∧ i = .ret
  | .hexDigitOutOfRange v => s.params.hexDigitPolicy = .fault ∧ 0x0F < v.toNat ∧
      ∃ x, v = s.getV x ∧ (i = .skp x ∨ i = .sknp x ∨ i = .ldF x)
  | .protectedWrite a => s.params.fontProtect = true ∧ (∃ x, i = .ldB x ∨ i = .ldMemVx x) ∧
      LowestOffending i s (· ≤ 0x004F) a

/-- The components an instruction may write when it completes or waits: the "written by" column of
10_state.md R20, PC meaning a change beyond the default advance. -/
def writtenParts : Instr → List Part
  | .cls => [.gfx]
  | .ret | .call _ => [.pc, .stack]
  | .jp _ | .jpV0 _ | .seImm _ _ | .sneImm _ _ | .seReg _ _ | .sneReg _ _ | .skp _ | .sknp _ => [.pc]
  | .ldImm _ _ | .addImm _ _ | .ldReg _ _ | .or _ _ | .and _ _ | .xor _ _ | .addReg _ _ | .sub _ _
  | .shr _ _ | .subn _ _ | .shl _ _ | .ldVxDt _ | .ldVxMem _ => [.v]
  | .rnd _ _ => [.v, .draws]
  | .drw _ _ _ => [.v, .gfx]
  | .ldVxK _ => [.v, .pc]
  | .ldDtVx _ => [.dt]
  | .ldStVx _ => [.st]
  | .ldI _ | .addI _ | .ldF _ => [.i]
  | .ldB _ | .ldMemVx _ => [.mem]

/-- The general registers an instruction may write: its named destination, and VF for exactly the six
instructions of 10_state.md R22. -/
def writtenRegs : Instr → List Nibble
  | .cls | .ret | .call _ | .jp _ | .jpV0 _ | .seImm _ _ | .sneImm _ _ | .seReg _ _ | .sneReg _ _
  | .skp _ | .sknp _ | .ldDtVx _ | .ldStVx _ | .ldI _ | .addI _ | .ldF _ | .ldB _ | .ldMemVx _ => []
  | .ldImm x _ | .addImm x _ | .ldReg x _ | .or x _ | .and x _ | .xor x _ | .rnd x _ | .ldVxDt x
  | .ldVxK x => [x]
  | .addReg x _ | .sub x _ | .shr x _ | .subn x _ | .shl x _ => [x, vf]
  | .drw _ _ _ => [vf]
  | .ldVxMem x => (List.range (x.toNat + 1)).map (BitVec.ofNat 4)

/-! ### Sprites (43_display.md R183) -/

/-- The column of a sprite drawn from column x0 that falls on cell column cx, columns wrapping modulo 64. -/
def spriteColumn (x0 : Nat) (cx : Fin 64) : Nat := (cx.val + 64 - x0 % 64) % 64

/-- The row of a sprite drawn from line y0 that falls on cell line cy, lines wrapping modulo 32. -/
def spriteLine (y0 : Nat) (cy : Fin 32) : Nat := (cy.val + 32 - y0 % 32) % 32

/-- The sprite of n bytes at I, drawn at (Vx, Vy), has a 1 bit on cell (cx, cy): bit 7 - column of the byte
at I + line. -/
def spriteCovers (s : State) (x y n : Nibble) (cx : Fin 64) (cy : Fin 32) : Bool :=
  decide (spriteColumn (spriteX x s) cx < 8) && decide (spriteLine (spriteY y s) cy < n.toNat) &&
    (s.byte (s.ea + spriteLine (spriteY y s) cy)).getLsbD (7 - spriteColumn (spriteX x s) cx)

end Sys2Proof.Machine
end

