-- ==== Sys2Proof/Certificates/Slice0/Obligations.lean ====
section
/-! DEFINITION. The statements for the provers. Each docstring names the rule it formalises, and names the spec's
own decision (D<n> of 92_eei_decisions.md) or the log entry where a clause rests on one. `Completed` and `TookFault` (Safety.lean) put Execute's Done and
its raise into the state's `reply` and `halt`: the model's form, log 1 and log 2. -/

open Sys2Proof Sys2Proof.Machine

/-! ### Encoding -/

/-- Decoding the word of an instruction gives the instruction back, with every operand at every value (R71,
R80, R85; exactness is decision D24, and rows the source does not name come from decision D1). -/
def Obligations.DecodeInvertsEncode : Prop := ∀ i : Instr, decode (encode i) = .ok i

/-- A word that decodes is the word of the instruction it decodes to: no bit is ignored (R71, R80; decision
D24). -/
def Obligations.EncodeInvertsDecode : Prop := ∀ (w : Word) (i : Instr), decode w = .ok i → encode i = w

/-- Decode follows the match and mask table of R80: at most one row matches a word, a word decodes exactly when
a row matches, the decoded instruction's own row is the one that matches, and every other word is Unknown (R76,
whose disjointness the spec marks as derived). -/
def Obligations.DecodeFollowsTheOpcodeTable : Prop :=
  ∀ w : Word, (opcodeTable.filter (fun r => rowMatches r w)).length ≤ 1 ∧
    ((∃ i, decode w = .ok i) ↔ wordInTable w = true) ∧
    (∀ i, decode w = .ok i → rowMatches (rowOf i) w = true) ∧
    (wordInTable w = false → decode w = .error (.unknownOpcode w))

/-- The Unknown words, family by family (R81, R82; decision D24). -/
def Obligations.UnknownWordsByFamily : Prop :=
  ∀ w : Word, (∃ e, decode w = .error e) ↔
    ((fieldOp w = 0x0 ∧ w ≠ 0x00E0 ∧ w ≠ 0x00EE) ∨ (fieldOp w = 0x5 ∧ fieldN w ≠ 0) ∨
     (fieldOp w = 0x8 ∧ 0x8 ≤ (fieldN w).toNat ∧ fieldN w ≠ 0xE) ∨ (fieldOp w = 0x9 ∧ fieldN w ≠ 0) ∨
     (fieldOp w = 0xE ∧ fieldKk w ∉ [0x9E#8, 0xA1#8]) ∨
     (fieldOp w = 0xF ∧ fieldKk w ∉ [0x07#8, 0x0A#8, 0x15#8, 0x18#8, 0x1E#8, 0x29#8, 0x33#8, 0x55#8, 0x65#8]))

/-- A few words of 95_test_vectors.md, written out from their encodings, decode to the instructions they stand
for, and a few Unknown ones do not (R80, R81, R82). -/
def Obligations.DecodeReadsTheSpecsWords : Prop :=
  decode 0x00E0#16 = .ok .cls ∧ decode 0x00EE#16 = .ok .ret ∧ decode 0x2210#16 = .ok (.call 0x210#12) ∧
  decode 0x5FE0#16 = .ok (.seReg 0xF#4 0xE#4) ∧ decode 0x6A7B#16 = .ok (.ldImm 0xA#4 0x7B#8) ∧
  decode 0x8014#16 = .ok (.addReg 0x0#4 0x1#4) ∧ decode 0x820E#16 = .ok (.shl 0x2#4 0x0#4) ∧
  decode 0xD015#16 = .ok (.drw 0x0#4 0x1#4 0x5#4) ∧ decode 0xEFA1#16 = .ok (.sknp 0xF#4) ∧
  decode 0xFF65#16 = .ok (.ldVxMem 0xF#4) ∧ decode 0x0123#16 = .error (.unknownOpcode 0x0123#16) ∧
  decode 0xE002#16 = .error (.unknownOpcode 0xE002#16) ∧ decode 0x812F#16 = .error (.unknownOpcode 0x812F#16)

/-- Every instruction assembles from its row and its operands to exactly its word, and a row with an operand
that does not fit is refused (R84, R85, whose table is decision D28's and N20's). -/
def Obligations.AssembleGivesTheOneWord : Prop :=
  (∀ i : Instr, assemble (rowOf i) i.operandValues = some (encode i)) ∧
  (∀ (r : OpcodeRow) (o : OperandValues), o.wellFormed r.format = false → assemble r o = none)

/-! ### The Step -/

/-- A running core whose next two bytes decode to i runs exec of i on the state with PC advanced by 2, and
then finishes the Step, ticking when the instruction completed (R73, R75, R78, R79). -/
def Obligations.StepRunsTheDecodedInstruction : Prop :=
  ∀ (s t : State) (i : Instr), s.halt = none → s.pc.toNat ≤ 0x0FFE →
    decode (bigEndian (s.byte s.pc.toNat) (s.byte (s.pc.toNat + 1))) = .ok i →
    exec i (s.setPc (s.pc + 2)) = .next t → step s = .next (finish t)

/-- The fetch: two bytes, big-endian, at PC; where PC + 1 > 0x0FFF the Step takes OutOfBoundsAddress at PC, or
at 0x1000 when PC = 0x0FFF, and PC keeps the fetch address (R74, R221 to R223; the record is decisions D7 and D30, its form
as a next state is log 1). -/
def Obligations.FetchReadsTwoBytesOrFaults : Prop :=
  ∀ s : State, (s.pc.toNat + 1 ≤ 0x0FFF →
      fetch s = .ok (bigEndian (s.byte s.pc.toNat) (s.byte (s.pc.toNat + 1)))) ∧
    (s.halt = none → 0x0FFF < s.pc.toNat + 1 →
      ∃ t f, step s = .next t ∧ f = FaultRecord.mk
          (.outOfBoundsAddress (if s.pc.toNat = 0x0FFF then 0x1000 else s.pc.toNat)) s.pc ∧
        t.halt = some f ∧ t.reply = some (.faulted f) ∧ OnlyChanges [.halt] s t)

/-- A fetched word that is Unknown raises UnknownOpcode with the raw word; PC is a + 2 and nothing else changes
but the halt record (R77, R221 to R223; the record is decisions D7 and D30, its form as a next state is log 1). -/
def Obligations.UnknownOpcodeTakesItsFault : Prop :=
  ∀ (s : State) (w : Word), s.halt = none → fetch s = .ok w → wordInTable w = false →
    ∃ t, step s = .next t ∧ t.pc = s.pc + 2 ∧ t.halt = some ⟨.unknownOpcode w, s.pc⟩ ∧
      t.reply = some (.faulted ⟨.unknownOpcode w, s.pc⟩) ∧ OnlyChanges [.pc, .halt] s t

/-- A core halted by f answers Faulted(f) and gives no new state, and only such a core does; every other core's
Step answers a next state, so none is refused (R224, R233; holding the halt in the core is decision D7; that this
answer is the Host's `fault`, and that a Step which raises a fault is a next state, are the model's choice,
log 1). -/
def Obligations.HaltedCoreAnswersItsFault : Prop :=
  ∀ s : State, (∀ f : FaultRecord, step s = .fault (.halted f) ↔ s.halt = some f) ∧
    (s.halt = none ↔ ∃ t, step s = .next t)

/-- Every Step of a running core answers a next state, in exactly one of three outcomes: executed, running on;
waiting, with no change of state; or faulted, with the fetch address in the record, PC at a or a + 2, the halt
set, and nothing else changed. No Step is refused (R233, R221, R222, R223; decisions D7, D20 and D30). That a
faulting Step answers a next state, and that the outcome stands in `reply`, are the model's choices (log 1,
log 2). -/
def Obligations.EveryStepEndsInOneOfThreeOutcomes : Prop :=
  ∀ s : State, s.halt = none → ∃ t, step s = .next t ∧
    ((∃ b, t.reply = some (.executed b) ∧ t.halt = none) ∨
     (t.reply = some .waiting ∧ OnlyChanges [] s t) ∨
     (∃ k, t.halt = some ⟨k, s.pc⟩ ∧ t.reply = some (.faulted ⟨k, s.pc⟩) ∧ OnlyChanges [.pc, .halt] s t ∧
       t.pc = if s.pc.toNat ≤ 0x0FFE then s.pc + 2 else s.pc))

/-- Execute always answers, in one of three ways: it completes, or LD Vx, K waits, or a fault is taken, and each
fault kind only by the instructions, under the conditions and with the payload that the table of R220 names, the
address faults at the lowest offending address of the instruction's own access (R78, R220, R232, R166; decisions
D5, D7, D23, D30; the form of the three ways is the model's, log 1 and log 2). -/
def Obligations.OnlyTheNamedInstructionsStop : Prop :=
  ∀ (i : Instr) (s : State), ∃ t, exec i s = .next t ∧
    ((Completed t ∧ t.halt = s.halt) ∨ (t.reply = some .waiting ∧ t.halt = s.halt ∧ ∃ x, i = .ldVxK x) ∨
     ∃ k, TookFault k s t ∧ mayRaise i s k)

/-- When the executed instruction completed, the Step ends with the tick: each timer one less unless it is 0,
the beep exactly when ST was 1, and nothing else changed by the tick; after waiting or a fault nothing follows
(R79, R200, R201; one tick per completed Step is decision D22). -/
def Obligations.TickFollowsACompletedInstruction : Prop :=
  ∀ t : State,
    (Completed t → (finish t).dt.toNat = t.dt.toNat - 1 ∧ (finish t).st.toNat = t.st.toNat - 1 ∧
      (finish t).reply = some (.executed (decide (t.st.toNat = 1))) ∧ OnlyChanges [.dt, .st] t (finish t)) ∧
    (t.reply = some .waiting → finish t = t) ∧ (∀ f, t.reply = some (.faulted f) → finish t = t)

/-- The timers move in no other way: a Step whose instruction is not LD DT, Vx or LD ST, Vx leaves each timer
one lower (or 0) when it is executed and as it was when it waits or faults, and beeps exactly when it executed
with ST = 1 (R27, R200; decision D22). -/
def Obligations.TimersCountExecutedStepsOnly : Prop :=
  ∀ (s t : State) (w : Word) (i : Instr), fetch s = .ok w → decode w = .ok i →
    (∀ x, i ≠ .ldDtVx x) → (∀ x, i ≠ .ldStVx x) → step s = .next t →
    (∃ b, t.reply = some (.executed b) ∧ b = decide (s.st.toNat = 1) ∧ t.dt.toNat = s.dt.toNat - 1 ∧
      t.st.toNat = s.st.toNat - 1) ∨
    ((∀ b, t.reply ≠ some (.executed b)) ∧ t.dt = s.dt ∧ t.st = s.st)

/-! ### Invariants and whole-machine rules -/

/-- Every Step keeps memory in canonical form: addresses rising, all inside the 4096 bytes, none listed with its
reset contents (R50, R52, R56; the form is the model's, log 5). -/
def Obligations.StepKeepsMemoryCanonical : Prop :=
  ∀ s t : State, s.MemWf → step s = .next t → t.MemWf

/-- Every Step keeps PC at most 0x10FE and every stack entry at most 0x1000 (R25, R103, R105, R110; decision
D10). -/
def Obligations.StepKeepsAddressesBounded : Prop :=
  ∀ s t : State, s.PcBounded → step s = .next t → t.PcBounded

/-- Every Step keeps the halt record and the reply in agreement: halted by f exactly when the last reply was
Faulted(f) (R223, R224; decision D7). -/
def Obligations.StepKeepsHaltAgreement : Prop :=
  ∀ s t : State, s.HaltAgrees → step s = .next t → t.HaltAgrees

/-- The three invariants hold after reset (R250, R32; decisions D2, D3, D7). That memory has a canonical form is
the model's choice (log 5), and so is the reply that halt agrees with, none after reset (log 2). -/
def Obligations.ResetMeetsTheInvariants : Prop := State.reset.Inv ∧ ∀ p : Params, (State.resetWith p).Inv

/-- With font_protect set, no Step changes a byte of 0x000 to 0x04F (R52, R56; decision D23). -/
def Obligations.StepNeverWritesTheProtectedFont : Prop :=
  ∀ s t : State, s.params.fontProtect = true → step s = .next t → ∀ a : Nat, a < 0x50 → t.byte a = s.byte a

/-- What an instruction leaves alone: every component but those R20 says it writes, and the halt record when it
faults. Keys and parameters are never written (R20, R29). -/
def Obligations.ExecuteChangesOnlyItsComponents : Prop :=
  ∀ (i : Instr) (s t : State), exec i s = .next t → OnlyChanges (.halt :: writtenParts i) s t

/-- What an instruction leaves alone among V0 to VF: every register but its destination, and VF but for the six
flag writers (R21, R22; that the list of R22 is complete is decisions D9, D15, D16). -/
def Obligations.ExecuteChangesOnlyItsRegisters : Prop :=
  ∀ (i : Instr) (s t : State), exec i s = .next t → VExcept (writtenRegs i) s t

/-- A whole Step changes, beside PC, the timers and the halt record, only what its decoded instruction writes;
a Step that decodes nothing changes only PC and the halt record (R20, R73, R221; decision D7). -/
def Obligations.StepChangesOnlyWhatItsInstructionWrites : Prop :=
  ∀ s t : State, step s = .next t →
    (OnlyChanges [.pc, .halt] s t) ∨
    (∃ w i, fetch s = .ok w ∧ decode w = .ok i ∧ OnlyChanges ([.pc, .dt, .st, .halt] ++ writtenParts i) s t ∧
      VExcept (writtenRegs i) s t)

/-- A byte of memory changes in a Step only where LD B, Vx stores its three digits or LD [I], Vx stores V0 to
Vx, at I and up (R61, R163, R164, R20). -/
def Obligations.StepWritesMemoryOnlyByStores : Prop :=
  ∀ (s t : State) (a : Nat), step s = .next t → t.byte a ≠ s.byte a →
    ∃ w i x, fetch s = .ok w ∧ decode w = .ok i ∧ s.ea ≤ a ∧ a ≤ 0x0FFF ∧
      ((i = .ldB x ∧ a < s.ea + 3) ∨ (i = .ldMemVx x ∧ a < s.ea + (x.toNat + 1)))

/-- With every key up, a core at an Fx0A waits for as long as it is stepped: each Step replies Waiting and
nothing else ever changes (R208, R232; decision D20). -/
def Obligations.KeyWaitRepeatsWhileKeysAreUp : Prop :=
  ∀ (s : State) (w : Word) (x : Nibble) (n : Nat), s.halt = none → fetch s = .ok w → decode w = .ok (.ldVxK x) →
    (∀ k, s.key k = false) → Host.Core.run core (n + 1) s = .next (s.setReply .waiting)

/-- A parked core stays parked for as long as it is stepped, changing nothing but its timers (R260, R104;
decision D34). -/
def Obligations.ParkedCoreStaysParked : Prop :=
  ∀ (s : State) (n : Nat), s.parked = true →
    ∃ t, Host.Core.run core n s = .next t ∧ t.parked = true ∧ OnlyChanges [.dt, .st] s t

/-- Reset: under any parameters, and through the reset port from every state, a halted one among them, each
component of R20 gets its reset value; the default parameters are those of R6, and the default FONT is the table
of R251 (R32, R250, R251, R224; the values are the spec's decisions D2, D3, D4 and D7). That the port keeps the
parameters is the model's choice (log 3, log 9). -/
def Obligations.ResetLeavesTheStatedValues : Prop :=
  (∀ p : Params, (State.resetWith p).AfterReset p) ∧ (∀ s : State, (portReset s).AfterReset s.params) ∧
    State.reset = State.resetWith defaultParams ∧
    (defaultParams.shlFlagBit = .bit7 ∧ defaultParams.hexDigitPolicy = .fault ∧ defaultParams.fontProtect = false) ∧
    State.reset.bytes 0x00 5 = [0xF0, 0x90, 0x90, 0x90, 0xF0] ∧
    State.reset.bytes 0x05 5 = [0x20, 0x60, 0x20, 0x20, 0x70] ∧
    State.reset.bytes 0x0A 5 = [0xF0, 0x10, 0xF0, 0x80, 0xF0] ∧
    State.reset.bytes 0x0F 5 = [0xF0, 0x10, 0xF0, 0x10, 0xF0] ∧
    State.reset.bytes 0x14 5 = [0x90, 0x90, 0xF0, 0x10, 0x10] ∧
    State.reset.bytes 0x19 5 = [0xF0, 0x80, 0xF0, 0x10, 0xF0] ∧
    State.reset.bytes 0x1E 5 = [0xF0, 0x80, 0xF0, 0x90, 0xF0] ∧
    State.reset.bytes 0x23 5 = [0xF0, 0x10, 0x20, 0x40, 0x40] ∧
    State.reset.bytes 0x28 5 = [0xF0, 0x90, 0xF0, 0x90, 0xF0] ∧
    State.reset.bytes 0x2D 5 = [0xF0, 0x90, 0xF0, 0x10, 0xF0] ∧
    State.reset.bytes 0x32 5 = [0xF0, 0x90, 0xF0, 0x90, 0x90] ∧
    State.reset.bytes 0x37 5 = [0xE0, 0x90, 0xE0, 0x90, 0xE0] ∧
    State.reset.bytes 0x3C 5 = [0xF0, 0x80, 0x80, 0x80, 0xF0] ∧
    State.reset.bytes 0x41 5 = [0xE0, 0x90, 0x90, 0x90, 0xE0] ∧
    State.reset.bytes 0x46 5 = [0xF0, 0x80, 0xF0, 0x80, 0xF0] ∧
    State.reset.bytes 0x4B 5 = [0xF0, 0x80, 0xF0, 0x80, 0x80]

/-! ### Memory accesses and ports -/

/-- Read(addr): the byte inside memory, OutOfBoundsAddress(addr) at 0x1000 and above (R51). -/
def Obligations.ReadIsBoundChecked : Prop :=
  ∀ (s : State) (addr : Nat), (addr ≤ 0x0FFF → memRead s addr 1 = .ok [s.byte addr]) ∧
    (0x1000 ≤ addr → memRead s addr 1 = .error (.outOfBoundsAddress addr))

/-- Write(addr, b): sets that byte and no other; faults outside memory and, when font_protect is set, in the
font (R52; decision D23). -/
def Obligations.WriteChangesOneByteOrFaults : Prop :=
  ∀ (s : State) (addr : Nat) (b : Byte),
    (addr ≤ 0x0FFF → (s.params.fontProtect = true → 0x50 ≤ addr) →
      ∃ t, memWrite s addr [b] = .ok t ∧ t.byte addr = b ∧ MemExcept addr 1 s t ∧ OnlyChanges [.mem] s t) ∧
    (0x1000 ≤ addr → memWrite s addr [b] = .error (.outOfBoundsAddress addr)) ∧
    (s.params.fontProtect = true → addr ≤ 0x004F → memWrite s addr [b] = .error (.protectedWrite addr))

/-- ReadWord after WriteWord returns the word, at every address up to 0x0FFE that is not protected, with the
high byte at addr and the low byte at addr + 1 (R53, R54; decisions D23, D30). -/
def Obligations.WordRoundTrip : Prop :=
  ∀ (s : State) (addr : Nat) (v : Word), addr ≤ 0x0FFE → (s.params.fontProtect = true → 0x50 ≤ addr) →
    ∃ t, writeWord s addr v = .ok t ∧ readWord t addr = .ok v ∧ (t.byte addr).toNat = v.toNat / 256 ∧
      (t.byte (addr + 1)).toNat = v.toNat % 256 ∧ MemExcept addr 2 s t ∧ OnlyChanges [.mem] s t

/-- The load port: before the first Step an image of at most 3584 bytes is written at 0x200 and up and nothing
else changes; a longer image is refused, and so is a load once a Step has replied (R252; decision D26; that the
reply tells whether a Step has run is the model's choice, log 2, and so is that a second load before the first
Step is written too and leaves what an earlier image put beyond it, log 11). -/
def Obligations.LoadPortWritesTheImageOrRefuses : Prop :=
  ∀ (s : State) (image : List Byte),
    (s.reply = none → image.length ≤ 3584 → ∃ t, portLoad image s = .next t ∧
      (∀ (k : Nat) (h : k < image.length), t.byte (0x200 + k) = image[k]) ∧ MemExcept 0x200 image.length s t ∧
      OnlyChanges [.mem] s t ∧ t.reply = none) ∧
    (s.reply = none → 3584 < image.length → portLoad image s = .refused (.imageTooLong image.length)) ∧
    (s.reply ≠ none → portLoad image s = .refused .loadAfterStep)

/-- The display port: the pixel for coordinates inside the buffer, a refusal outside (R181; decision D32). -/
def Obligations.DisplayPortReadsOrRefuses : Prop :=
  ∀ (s : State) (x y : Nat),
    (∀ (hx : x < 64) (hy : y < 32), portGetPixel s x y = .ok (pixel s.gfx ⟨x, hx⟩ ⟨y, hy⟩)) ∧
    (64 ≤ x ∨ 32 ≤ y → portGetPixel s x y = .error (.pixelOutOfRange x y))

/-- After the host's boot sequence the first Step fetches the image's first two bytes (R253, R254, R252;
decisions D2, D26). -/
def Obligations.FirstStepFetchesTheImage : Prop :=
  ∀ (p : Params) (image : List Byte) (keys : Vector Bool 16), image.length ≤ 3584 →
    ∃ s, portBoot p image keys = .next s ∧ s.halt = none ∧ s.keys = keys ∧ s.params = p ∧
      fetch s = .ok (bigEndian (image.getD 0 0) (image.getD 1 0))

/-- Two registers stored by LD [I], Vx are the word that a later fetch at I reads: no stale instruction (R65,
R256; decision D27). -/
def Obligations.StoredBytesAreFetched : Prop :=
  ∀ (s t : State) (x : Nibble), 1 ≤ x.toNat → exec (.ldMemVx x) s = .next t → Completed t →
    fetch (t.setPc t.i) = .ok (bigEndian (s.getV 0) (s.getV 1))

/-! ### Control transfer -/

/-- JP nnn (R104). -/
def Obligations.JumpSetsPc : Prop :=
  ∀ (s : State) (nnn : Addr), ∃ t, exec (.jp nnn) s = .next t ∧ t.pc.toNat = nnn.toNat ∧
    OnlyChanges [.pc] s t

/-- CALL nnn: with fewer than 16 entries PC (a + 2) is pushed and PC becomes nnn; with 16 it takes StackOverflow,
nothing pushed and PC still a + 2 (R105, R100; PC after the fault is decision D7). -/
def Obligations.CallPushesThenJumpsOrOverflows : Prop :=
  ∀ (s : State) (nnn : Addr),
    (∀ h : s.sp.val < 16, ∃ t, exec (.call nnn) s = .next t ∧ Completed t ∧ t.pc.toNat = nnn.toNat ∧
      t.sp.val = s.sp.val + 1 ∧ t.stack[s.sp.val] = s.pc ∧
      (∀ (k : Nat) (hk : k < 16), k ≠ s.sp.val → t.stack[k] = s.stack[k]) ∧ OnlyChanges [.pc, .stack] s t) ∧
    (s.sp.val = 16 → ∃ t, exec (.call nnn) s = .next t ∧ TookFault .stackOverflow s t)

/-- RET: the top entry goes to PC, SP is one less and no entry is cleared; with an empty stack it takes
StackUnderflow (R101, R103; PC after the fault is decision D7). -/
def Obligations.ReturnPopsToPcOrUnderflows : Prop :=
  ∀ s : State,
    (∀ h : 0 < s.sp.val, ∃ t, exec .ret s = .next t ∧ Completed t ∧
      t.pc = s.stack[s.sp.val - 1]'(by have := s.sp.isLt; omega) ∧ t.sp.val = s.sp.val - 1 ∧ t.stack = s.stack ∧
      OnlyChanges [.pc, .stack] s t) ∧
    (s.sp.val = 0 → ∃ t, exec .ret s = .next t ∧ TookFault .stackUnderflow s t)

/-- "subsequent RET pops that exact address back into PC": a RET that finds the stack a CALL left returns to the
CALL's a + 2 and leaves the stack pointer as it was before the CALL (R103, R105, R101). -/
def Obligations.CallThenReturnComesBack : Prop :=
  ∀ (s t u : State) (nnn : Addr), exec (.call nnn) s = .next t → Completed t → u.stack = t.stack → u.sp = t.sp →
    ∃ r, exec .ret u = .next r ∧ Completed r ∧ r.pc = s.pc ∧ r.sp = s.sp

/-- The four skips: SE and SNE with a byte and with a register. PC, which is a + 2, becomes a + 4 where the
condition holds and stays where it does not (R106, R107, R108, R109). -/
def Obligations.SkipsCompareAndSkipOneWord : Prop :=
  ∀ (s : State) (x y : Nibble) (kk : Byte),
    (∃ t, exec (.seImm x kk) s = .next t ∧
      t.pc = (if s.getV x = kk then s.pc + 2 else s.pc) ∧ OnlyChanges [.pc] s t) ∧
    (∃ t, exec (.sneImm x kk) s = .next t ∧
      t.pc = (if s.getV x = kk then s.pc else s.pc + 2) ∧ OnlyChanges [.pc] s t) ∧
    (∃ t, exec (.seReg x y) s = .next t ∧
      t.pc = (if s.getV x = s.getV y then s.pc + 2 else s.pc) ∧ OnlyChanges [.pc] s t) ∧
    (∃ t, exec (.sneReg x y) s = .next t ∧
      t.pc = (if s.getV x = s.getV y then s.pc else s.pc + 2) ∧ OnlyChanges [.pc] s t)

/-- JP V0, nnn: nnn + V0 with no mask and no wrap (R110; decision D10). -/
def Obligations.JumpV0AddsWithoutMask : Prop :=
  ∀ (s : State) (nnn : Addr), ∃ t, exec (.jpV0 nnn) s = .next t ∧ Completed t ∧
    t.pc.toNat = nnn.toNat + (s.getV 0).toNat ∧ OnlyChanges [.pc] s t

/-! ### Loads, arithmetic, logic, shifts, random -/

/-- LD Vx, kk and LD Vx, Vy (R131, R133). -/
def Obligations.LoadsWriteOneRegister : Prop :=
  ∀ (s : State) (x y : Nibble) (kk : Byte),
    (∃ t, exec (.ldImm x kk) s = .next t ∧ t.getV x = kk ∧ VExcept [x] s t ∧
      OnlyChanges [.v] s t) ∧
    (∃ t, exec (.ldReg x y) s = .next t ∧ t.getV x = s.getV y ∧ VExcept [x] s t ∧
      OnlyChanges [.v] s t)

/-- ADD Vx, kk: modulo 256, and VF is not a flag of it (R132; decision D16). -/
def Obligations.AddImmediateWrapsWithoutFlag : Prop :=
  ∀ (s : State) (x : Nibble) (kk : Byte), ∃ t, exec (.addImm x kk) s = .next t ∧ Completed t ∧
    (t.getV x).toNat = ((s.getV x).toNat + kk.toNat) % 256 ∧ VExcept [x] s t ∧ OnlyChanges [.v] s t

/-- OR, AND and XOR, bit by bit, and VF is not a flag of them (R134, R135, R136; decision D15). -/
def Obligations.LogicIsBitwiseWithoutFlag : Prop :=
  ∀ (s : State) (x y : Nibble),
    (∃ t, exec (.or x y) s = .next t ∧ Completed t ∧
      (∀ k, (t.getV x).getLsbD k = ((s.getV x).getLsbD k || (s.getV y).getLsbD k)) ∧ VExcept [x] s t ∧
      OnlyChanges [.v] s t) ∧
    (∃ t, exec (.and x y) s = .next t ∧ Completed t ∧
      (∀ k, (t.getV x).getLsbD k = ((s.getV x).getLsbD k && (s.getV y).getLsbD k)) ∧ VExcept [x] s t ∧
      OnlyChanges [.v] s t) ∧
    (∃ t, exec (.xor x y) s = .next t ∧ Completed t ∧
      (∀ k, (t.getV x).getLsbD k = ((s.getV x).getLsbD k ^^ (s.getV y).getLsbD k)) ∧ VExcept [x] s t ∧
      OnlyChanges [.v] s t)

/-- ADD Vx, Vy: the sum modulo 256 in Vx, VF = 1 iff the sum exceeds 255 (R137), VF written last, so
that with x = 0xF the flag stays (R130; decision D12). -/
def Obligations.AddSetsCarry : Prop :=
  ∀ (s : State) (x y : Nibble), ∃ t, exec (.addReg x y) s = .next t ∧
    (x ≠ vf → (t.getV x).toNat = ((s.getV x).toNat + (s.getV y).toNat) % 256) ∧
    t.getV vf = (if (s.getV x).toNat + (s.getV y).toNat > 255 then 1 else 0) ∧ VExcept [x, vf] s t ∧
    OnlyChanges [.v] s t

/-- SUB Vx, Vy: the difference modulo 256 in Vx, VF = 1 iff Vx > Vy strictly (R138), VF written last, so
that with x = 0xF the flag stays (R130; decision D12). -/
def Obligations.SubSetsFlagWhenGreater : Prop :=
  ∀ (s : State) (x y : Nibble), ∃ t, exec (.sub x y) s = .next t ∧
    (x ≠ vf → (t.getV x).toNat = ((s.getV x).toNat + 256 - (s.getV y).toNat) % 256) ∧
    t.getV vf = (if (s.getV x).toNat > (s.getV y).toNat then 1 else 0) ∧ VExcept [x, vf] s t ∧
    OnlyChanges [.v] s t

/-- SUBN Vx, Vy: Vy - Vx modulo 256 in Vx, VF = 1 iff Vy > Vx strictly (R140, R130; decisions D12, D17). -/
def Obligations.SubnSetsFlagWhenLess : Prop :=
  ∀ (s : State) (x y : Nibble), ∃ t, exec (.subn x y) s = .next t ∧ Completed t ∧
    (x ≠ vf → (t.getV x).toNat = ((s.getV y).toNat + 256 - (s.getV x).toNat) % 256) ∧
    t.getV vf = (if (s.getV y).toNat > (s.getV x).toNat then 1 else 0) ∧ VExcept [x, vf] s t ∧
    OnlyChanges [.v] s t

/-- SHR Vx: half of Vx, VF the old bit 0, whatever y is (R139, R130; decisions D12, D13). -/
def Obligations.ShrHalvesAndKeepsTheBitOut : Prop :=
  ∀ (s : State) (x y : Nibble), ∃ t, exec (.shr x y) s = .next t ∧ Completed t ∧
    (x ≠ vf → (t.getV x).toNat = (s.getV x).toNat / 2) ∧
    t.getV vf = (if (s.getV x).toNat % 2 = 1 then 1 else 0) ∧ VExcept [x, vf] s t ∧ OnlyChanges [.v] s t

/-- SHL Vx: twice Vx modulo 256, VF the old bit 7 or, under shl_flag_bit = 0, the old bit 0, whatever y is
(R141, R130; decisions D12, D13, D14). -/
def Obligations.ShlDoublesAndKeepsTheChosenBit : Prop :=
  ∀ (s : State) (x y : Nibble), ∃ t, exec (.shl x y) s = .next t ∧ Completed t ∧
    (x ≠ vf → (t.getV x).toNat = (s.getV x).toNat * 2 % 256) ∧
    (s.params.shlFlagBit = .bit7 → t.getV vf = (if 128 ≤ (s.getV x).toNat then 1 else 0)) ∧
    (s.params.shlFlagBit = .bit0 → t.getV vf = (if (s.getV x).toNat % 2 = 1 then 1 else 0)) ∧
    VExcept [x, vf] s t ∧ OnlyChanges [.v] s t

/-- RND Vx, kk: the next random byte, whatever it is, AND kk, and one draw consumed; kk = 0x00 gives 0x00 (R142;
the draw is a free value, decision D21, log 4). -/
def Obligations.RandomByteIsMasked : Prop :=
  ∀ (s : State) (x : Nibble) (kk : Byte), ∃ t, exec (.rnd x kk) s = .next t ∧ Completed t ∧
    (∀ k, (t.getV x).getLsbD k = ((Config.rnd s.draws).getLsbD k && kk.getLsbD k)) ∧ (kk = 0 → t.getV x = 0) ∧
    t.draws = s.draws + 1 ∧ VExcept [x] s t ∧ OnlyChanges [.v, .draws] s t

/-! ### Index register and memory -/

/-- LD I, nnn (R160). -/
def Obligations.LoadIndexZeroExtends : Prop :=
  ∀ (s : State) (nnn : Addr), ∃ t, exec (.ldI nnn) s = .next t ∧ t.i.toNat = nnn.toNat ∧
    OnlyChanges [.i] s t

/-- ADD I, Vx: modulo 2^16, no flag (R161; decision D9). -/
def Obligations.AddIndexWrapsWithoutFlag : Prop :=
  ∀ (s : State) (x : Nibble), ∃ t, exec (.addI x) s = .next t ∧ Completed t ∧
    t.i.toNat = (s.i.toNat + (s.getV x).toNat) % 65536 ∧ OnlyChanges [.i] s t

/-- LD F, Vx: I = 5·d for a digit d; above 0x0F the policy decides: HexDigitOutOfRange, or the low four bits
(R162, R205; decisions D4, D5). -/
def Obligations.LoadFontAddressOfDigit : Prop :=
  ∀ (s : State) (x : Nibble),
    ((s.getV x).toNat ≤ 0x0F → ∃ t, exec (.ldF x) s = .next t ∧ Completed t ∧ t.i.toNat = 5 * (s.getV x).toNat ∧
      OnlyChanges [.i] s t) ∧
    (0x0F < (s.getV x).toNat → s.params.hexDigitPolicy = .mask → ∃ t, exec (.ldF x) s = .next t ∧ Completed t ∧
      t.i.toNat = 5 * ((s.getV x).toNat % 16) ∧ OnlyChanges [.i] s t) ∧
    (0x0F < (s.getV x).toNat → s.params.hexDigitPolicy = .fault →
      ∃ t, exec (.ldF x) s = .next t ∧ TookFault (.hexDigitOutOfRange (s.getV x)) s t)

/-- LD B, Vx: hundreds at I, tens at I+1, units at I+2, nothing else changed; OutOfBoundsAddress at the lowest
offending address when I + 2 > 0x0FFF, ProtectedWrite at I when font_protect and I ≤ 0x004F, and then nothing is
written (R163; decisions D7, D23, D30). -/
def Obligations.StoreBcdDigits : Prop :=
  ∀ (s : State) (x : Nibble),
    (s.ea + 2 ≤ 0x0FFF → (s.params.fontProtect = true → 0x50 ≤ s.ea) →
      ∃ t, exec (.ldB x) s = .next t ∧ Completed t ∧ (t.byte s.ea).toNat = (s.getV x).toNat / 100 ∧
        (t.byte (s.ea + 1)).toNat = (s.getV x).toNat / 10 % 10 ∧
        (t.byte (s.ea + 2)).toNat = (s.getV x).toNat % 10 ∧ MemExcept s.ea 3 s t ∧ OnlyChanges [.mem] s t) ∧
    (0x0FFF < s.ea + 2 → ∃ t, exec (.ldB x) s = .next t ∧
      TookFault (.outOfBoundsAddress (max s.ea 0x1000)) s t) ∧
    (s.params.fontProtect = true → s.ea ≤ 0x004F →
      ∃ t, exec (.ldB x) s = .next t ∧ TookFault (.protectedWrite s.ea) s t)

/-- LD [I], Vx: V0 to Vx at I .. I+x, I unchanged; the faults of R164, and then nothing is written (R164;
decisions D18, D23). -/
def Obligations.StoreBlockOfRegisters : Prop :=
  ∀ (s : State) (x : Nibble),
    (s.ea + x.toNat ≤ 0x0FFF → (s.params.fontProtect = true → 0x50 ≤ s.ea) →
      ∃ t, exec (.ldMemVx x) s = .next t ∧ Completed t ∧
        (∀ k : Nibble, k.toNat ≤ x.toNat → t.byte (s.ea + k.toNat) = s.getV k) ∧
        MemExcept s.ea (x.toNat + 1) s t ∧ OnlyChanges [.mem] s t) ∧
    (0x0FFF < s.ea + x.toNat → (s.params.fontProtect = true → 0x50 ≤ s.ea) →
      ∃ t, exec (.ldMemVx x) s = .next t ∧ TookFault (.outOfBoundsAddress (max s.ea 0x1000)) s t) ∧
    (s.params.fontProtect = true → s.ea ≤ 0x004F →
      ∃ t, exec (.ldMemVx x) s = .next t ∧ TookFault (.protectedWrite s.ea) s t)

/-- LD Vx, [I]: V0 to Vx from I .. I+x, I unchanged; OutOfBoundsAddress when I + x > 0x0FFF, and then no register
is written (R165; decision D18). -/
def Obligations.LoadBlockOfRegisters : Prop :=
  ∀ (s : State) (x : Nibble),
    (s.ea + x.toNat ≤ 0x0FFF → ∃ t, exec (.ldVxMem x) s = .next t ∧ Completed t ∧
      (∀ k : Nibble, t.getV k = if k.toNat ≤ x.toNat then s.byte (s.ea + k.toNat) else s.getV k) ∧
      OnlyChanges [.v] s t) ∧
    (0x0FFF < s.ea + x.toNat → ∃ t, exec (.ldVxMem x) s = .next t ∧
      TookFault (.outOfBoundsAddress (max s.ea 0x1000)) s t)

/-! ### Display -/

/-- CLS (R182). -/
def Obligations.ClearTurnsEveryPixelOff : Prop :=
  ∀ s : State, ∃ t, exec .cls s = .next t ∧ (∀ cx cy, pixel t.gfx cx cy = false) ∧
    OnlyChanges [.gfx] s t

/-- DRW Vx, Vy, n: exactly the cells on which the sprite has a 1 bit are flipped, coordinates wrapping, and VF is
1 iff some cell went from on to off, else 0; with n = 0 nothing is read or drawn; OutOfBoundsAddress when the
sprite reaches 0x1000, and then no pixel changes (R183; decision D19). -/
def Obligations.DrawFlipsTheCoveredCells : Prop :=
  ∀ (s : State) (x y n : Nibble),
    (n = 0 ∨ s.ea + n.toNat ≤ 0x1000 → ∃ t, exec (.drw x y n) s = .next t ∧ Completed t ∧
      (∀ cx cy, pixel t.gfx cx cy = (pixel s.gfx cx cy ^^ spriteCovers s x y n cx cy)) ∧
      (t.getV vf = 1 ∨ t.getV vf = 0) ∧
      (t.getV vf = 1 ↔ ∃ cx cy, pixel s.gfx cx cy = true ∧ pixel t.gfx cx cy = false) ∧ VExcept [vf] s t ∧
      OnlyChanges [.v, .gfx] s t) ∧
    (n ≠ 0 → 0x1000 < s.ea + n.toNat → ∃ t, exec (.drw x y n) s = .next t ∧
      TookFault (.outOfBoundsAddress (max s.ea 0x1000)) s t)

/-- Drawing the same sprite twice at the same place restores the buffer, and the second draw sets VF exactly when
the first turned some cell on (R183; decision D19). R183's corner case says VF = 1 for every nonzero sprite; where
every covered cell was on before the first draw, R183's own pseudocode gives VF = 0 and is followed (log 8). The
coordinates must not be read from VF, which the first draw writes. -/
def Obligations.DrawTwiceRestoresTheBuffer : Prop :=
  ∀ (s t : State) (x y n : Nibble), x ≠ vf → y ≠ vf → exec (.drw x y n) s = .next t → Completed t →
    ∃ u, exec (.drw x y n) t = .next u ∧ Completed u ∧ u.gfx = s.gfx ∧
      (u.getV vf = 1 ↔ ∃ cx cy, pixel s.gfx cx cy = false ∧ pixel t.gfx cx cy = true)

/-! ### Timers and keys -/

/-- LD Vx, DT, LD DT, Vx and LD ST, Vx, and what the same Step's tick leaves (R202, R203, R204, R200; decision
D22). -/
def Obligations.TimerMoves : Prop :=
  ∀ (s : State) (x : Nibble),
    (∃ t, exec (.ldVxDt x) s = .next t ∧ Completed t ∧ t.getV x = s.dt ∧ VExcept [x] s t ∧
      OnlyChanges [.v] s t ∧ (finish t).getV x = s.dt ∧ (finish t).dt.toNat = s.dt.toNat - 1) ∧
    (∃ t, exec (.ldDtVx x) s = .next t ∧ Completed t ∧ t.dt = s.getV x ∧ OnlyChanges [.dt] s t ∧
      (finish t).dt.toNat = (s.getV x).toNat - 1) ∧
    (∃ t, exec (.ldStVx x) s = .next t ∧ Completed t ∧ t.st = s.getV x ∧ OnlyChanges [.st] s t ∧
      (finish t).st.toNat = (s.getV x).toNat - 1 ∧
      (finish t).reply = some (.executed (decide ((s.getV x).toNat = 1))))

/-- SKP Vx and SKNP Vx: skip on the key Vx names, down or up; above 0x0F the policy decides (R205, R206, R207;
decision D5). -/
def Obligations.SkipOnKeyReadsTheNamedKey : Prop :=
  ∀ (s : State) (x : Nibble),
    ((s.getV x).toNat ≤ 0x0F ∨ s.params.hexDigitPolicy = .mask →
      (∃ t, exec (.skp x) s = .next t ∧ Completed t ∧
        t.pc = (if s.keys[(s.getV x).toNat % 16]'(Nat.mod_lt _ (by decide)) = true then s.pc + 2 else s.pc) ∧
        OnlyChanges [.pc] s t) ∧
      (∃ t, exec (.sknp x) s = .next t ∧ Completed t ∧
        t.pc = (if s.keys[(s.getV x).toNat % 16]'(Nat.mod_lt _ (by decide)) = true then s.pc else s.pc + 2) ∧
        OnlyChanges [.pc] s t)) ∧
    (0x0F < (s.getV x).toNat → s.params.hexDigitPolicy = .fault →
      (∃ t, exec (.skp x) s = .next t ∧ TookFault (.hexDigitOutOfRange (s.getV x)) s t) ∧
      (∃ t, exec (.sknp x) s = .next t ∧ TookFault (.hexDigitOutOfRange (s.getV x)) s t))

/-- LD Vx, K: the lowest-numbered key that is down goes to Vx; with every key up it waits, PC back at a (R208;
decision D20). -/
def Obligations.KeyReadTakesTheLowestOrWaits : Prop :=
  ∀ (s : State) (x : Nibble),
    (∀ k : Nibble, s.key k = true → (∀ j : Nibble, j.toNat < k.toNat → s.key j = false) →
      ∃ t, exec (.ldVxK x) s = .next t ∧ Completed t ∧ (t.getV x).toNat = k.toNat ∧ VExcept [x] s t ∧
        OnlyChanges [.v] s t) ∧
    ((∀ k, s.key k = false) → ∃ t, exec (.ldVxK x) s = .next t ∧ t.reply = some .waiting ∧ t.pc = s.pc - 2 ∧
      OnlyChanges [.pc] s t)
end

