-- ==== Sys2Proof/Laws/Encoding.lean ====
section
/-! SUPPORT. The fields of an encoded word, and that every instruction is well formed. -/

namespace Sys2Proof

/-! ### Fields of an encoded word -/

/-- The low part of an append. -/
theorem extract_low {a b : Nat} (p : BitVec a) (q : BitVec b) : (p ++ q).extractLsb' 0 b = q := by
  ext k hk
  simp [BitVec.getLsbD_append, hk]

/-- A field inside the low part of an append. -/
theorem extract_in_low {a b : Nat} (p : BitVec a) (q : BitVec b) (lo len : Nat) (h : lo + len ≤ b) :
    (p ++ q).extractLsb' lo len = q.extractLsb' lo len := by
  ext k hk
  have : lo + k < b := by omega
  simp [BitVec.getLsbD_append, this]

/-- A field inside the high part of an append. -/
theorem extract_in_high {a b : Nat} (p : BitVec a) (q : BitVec b) (lo len : Nat) :
    (p ++ q).extractLsb' (b + lo) len = p.extractLsb' lo len := by
  ext k hk
  have h : ¬ b + lo + k < b := by omega
  have e : b + lo + k - b = lo + k := by omega
  simp [BitVec.getLsbD_append, h, e]

/-- Taking all the bits. -/
theorem extract_all {a : Nat} (p : BitVec a) : p.extractLsb' 0 a = p := by
  ext k hk
  simp

theorem fieldOp_encodeA (op : Nibble) (nnn : Addr) : fieldOp (encodeA op nnn) = op := by
  rw [fieldOp, encodeA, extract_in_high op nnn 0 4, extract_all]

theorem fieldNnn_encodeA (op : Nibble) (nnn : Addr) : fieldNnn (encodeA op nnn) = nnn := by
  rw [fieldNnn, encodeA, extract_low]

theorem fieldOp_encodeXK (op x : Nibble) (kk : Byte) : fieldOp (encodeXK op x kk) = op := by
  rw [fieldOp, encodeXK, extract_in_high op _ 0 4, extract_all]

theorem fieldX_encodeXK (op x : Nibble) (kk : Byte) : fieldX (encodeXK op x kk) = x := by
  rw [fieldX, encodeXK, extract_in_low _ _ 8 4 (by decide), extract_in_high x kk 0 4, extract_all]

theorem fieldKk_encodeXK (op x : Nibble) (kk : Byte) : fieldKk (encodeXK op x kk) = kk := by
  rw [fieldKk, encodeXK, extract_in_low _ _ 0 8 (by decide), extract_low]

theorem fieldOp_encodeXY (op x y n : Nibble) : fieldOp (encodeXY op x y n) = op := by
  rw [fieldOp, encodeXY, extract_in_high op _ 0 4, extract_all]

theorem fieldX_encodeXY (op x y n : Nibble) : fieldX (encodeXY op x y n) = x := by
  rw [fieldX, encodeXY, extract_in_low _ _ 8 4 (by decide), extract_in_high x _ 0 4, extract_all]

theorem fieldY_encodeXY (op x y n : Nibble) : fieldY (encodeXY op x y n) = y := by
  rw [fieldY, encodeXY, extract_in_low _ _ 4 4 (by decide), extract_in_low _ _ 4 4 (by decide),
    extract_in_high y n 0 4, extract_all]

theorem fieldN_encodeXY (op x y n : Nibble) : fieldN (encodeXY op x y n) = n := by
  rw [fieldN, encodeXY, extract_in_low _ _ 0 4 (by decide), extract_in_low _ _ 0 4 (by decide),
    extract_low]

/-- A bit vector is its high part and its low part. -/
theorem append_extract {a b : Nat} (w : BitVec (a + b)) : w.extractLsb' b a ++ w.extractLsb' 0 b = w := by
  simp

/-- A word is its high byte and its low byte. -/
theorem bigEndian_high_low (w : Word) : bigEndian (highByte w) (lowByte w) = w :=
  append_extract (a := 8) (b := 8) w

theorem highByte_bigEndian (hi lo : Byte) : highByte (bigEndian hi lo) = hi := by
  rw [highByte, bigEndian, extract_in_high hi lo 0 8, extract_all]

theorem lowByte_bigEndian (hi lo : Byte) : lowByte (bigEndian hi lo) = lo := by
  rw [lowByte, bigEndian, extract_low]

/-! ### Well-formedness -/

theorem fitsIn_toNat {w : Nat} (b : BitVec w) : fitsIn w b.toNat = true := by
  simp [fitsIn, b.isLt]

/-- The field types are exactly the fields' widths, so every instruction is well formed. -/
theorem wellFormed_all (i : Instr) : i.wellFormed = true := by
  cases i <;> simp [Instr.wellFormed, Instr.operandValues, Instr.format, OperandValues.wellFormed, fitsIn_toNat]

end Sys2Proof
end

