-- ==== Sys2Proof/Laws/State.lean ====
section
/-! SUPPORT. One lemma per field per update of the state, so that no proof unfolds a record update. -/

namespace Sys2Proof.Machine

variable (s : State)

/-! ### setV -/

@[simp] theorem State.setV_v (r : Nibble) (b : Byte) : (s.setV r b).v = s.v.set r.toNat b r.isLt := rfl
@[simp] theorem State.setV_i (r : Nibble) (b : Byte) : (s.setV r b).i = s.i := rfl
@[simp] theorem State.setV_pc (r : Nibble) (b : Byte) : (s.setV r b).pc = s.pc := rfl
@[simp] theorem State.setV_stack (r : Nibble) (b : Byte) : (s.setV r b).stack = s.stack := rfl
@[simp] theorem State.setV_sp (r : Nibble) (b : Byte) : (s.setV r b).sp = s.sp := rfl
@[simp] theorem State.setV_dt (r : Nibble) (b : Byte) : (s.setV r b).dt = s.dt := rfl
@[simp] theorem State.setV_st (r : Nibble) (b : Byte) : (s.setV r b).st = s.st := rfl
@[simp] theorem State.setV_mem (r : Nibble) (b : Byte) : (s.setV r b).mem = s.mem := rfl
@[simp] theorem State.setV_gfx (r : Nibble) (b : Byte) : (s.setV r b).gfx = s.gfx := rfl
@[simp] theorem State.setV_keys (r : Nibble) (b : Byte) : (s.setV r b).keys = s.keys := rfl
@[simp] theorem State.setV_halt (r : Nibble) (b : Byte) : (s.setV r b).halt = s.halt := rfl
@[simp] theorem State.setV_params (r : Nibble) (b : Byte) : (s.setV r b).params = s.params := rfl
@[simp] theorem State.setV_draws (r : Nibble) (b : Byte) : (s.setV r b).draws = s.draws := rfl
@[simp] theorem State.setV_reply (r : Nibble) (b : Byte) : (s.setV r b).reply = s.reply := rfl

/-! ### setVs -/

@[simp] theorem State.setVs_v (v : Vector Byte 16) : (s.setVs v).v = v := rfl
@[simp] theorem State.setVs_i (v : Vector Byte 16) : (s.setVs v).i = s.i := rfl
@[simp] theorem State.setVs_pc (v : Vector Byte 16) : (s.setVs v).pc = s.pc := rfl
@[simp] theorem State.setVs_stack (v : Vector Byte 16) : (s.setVs v).stack = s.stack := rfl
@[simp] theorem State.setVs_sp (v : Vector Byte 16) : (s.setVs v).sp = s.sp := rfl
@[simp] theorem State.setVs_dt (v : Vector Byte 16) : (s.setVs v).dt = s.dt := rfl
@[simp] theorem State.setVs_st (v : Vector Byte 16) : (s.setVs v).st = s.st := rfl
@[simp] theorem State.setVs_mem (v : Vector Byte 16) : (s.setVs v).mem = s.mem := rfl
@[simp] theorem State.setVs_gfx (v : Vector Byte 16) : (s.setVs v).gfx = s.gfx := rfl
@[simp] theorem State.setVs_keys (v : Vector Byte 16) : (s.setVs v).keys = s.keys := rfl
@[simp] theorem State.setVs_halt (v : Vector Byte 16) : (s.setVs v).halt = s.halt := rfl
@[simp] theorem State.setVs_params (v : Vector Byte 16) : (s.setVs v).params = s.params := rfl
@[simp] theorem State.setVs_draws (v : Vector Byte 16) : (s.setVs v).draws = s.draws := rfl
@[simp] theorem State.setVs_reply (v : Vector Byte 16) : (s.setVs v).reply = s.reply := rfl

/-! ### setI -/

@[simp] theorem State.setI_v (w : Word) : (s.setI w).v = s.v := rfl
@[simp] theorem State.setI_i (w : Word) : (s.setI w).i = w := rfl
@[simp] theorem State.setI_pc (w : Word) : (s.setI w).pc = s.pc := rfl
@[simp] theorem State.setI_stack (w : Word) : (s.setI w).stack = s.stack := rfl
@[simp] theorem State.setI_sp (w : Word) : (s.setI w).sp = s.sp := rfl
@[simp] theorem State.setI_dt (w : Word) : (s.setI w).dt = s.dt := rfl
@[simp] theorem State.setI_st (w : Word) : (s.setI w).st = s.st := rfl
@[simp] theorem State.setI_mem (w : Word) : (s.setI w).mem = s.mem := rfl
@[simp] theorem State.setI_gfx (w : Word) : (s.setI w).gfx = s.gfx := rfl
@[simp] theorem State.setI_keys (w : Word) : (s.setI w).keys = s.keys := rfl
@[simp] theorem State.setI_halt (w : Word) : (s.setI w).halt = s.halt := rfl
@[simp] theorem State.setI_params (w : Word) : (s.setI w).params = s.params := rfl
@[simp] theorem State.setI_draws (w : Word) : (s.setI w).draws = s.draws := rfl
@[simp] theorem State.setI_reply (w : Word) : (s.setI w).reply = s.reply := rfl

/-! ### setPc -/

@[simp] theorem State.setPc_v (w : Word) : (s.setPc w).v = s.v := rfl
@[simp] theorem State.setPc_i (w : Word) : (s.setPc w).i = s.i := rfl
@[simp] theorem State.setPc_pc (w : Word) : (s.setPc w).pc = w := rfl
@[simp] theorem State.setPc_stack (w : Word) : (s.setPc w).stack = s.stack := rfl
@[simp] theorem State.setPc_sp (w : Word) : (s.setPc w).sp = s.sp := rfl
@[simp] theorem State.setPc_dt (w : Word) : (s.setPc w).dt = s.dt := rfl
@[simp] theorem State.setPc_st (w : Word) : (s.setPc w).st = s.st := rfl
@[simp] theorem State.setPc_mem (w : Word) : (s.setPc w).mem = s.mem := rfl
@[simp] theorem State.setPc_gfx (w : Word) : (s.setPc w).gfx = s.gfx := rfl
@[simp] theorem State.setPc_keys (w : Word) : (s.setPc w).keys = s.keys := rfl
@[simp] theorem State.setPc_halt (w : Word) : (s.setPc w).halt = s.halt := rfl
@[simp] theorem State.setPc_params (w : Word) : (s.setPc w).params = s.params := rfl
@[simp] theorem State.setPc_draws (w : Word) : (s.setPc w).draws = s.draws := rfl
@[simp] theorem State.setPc_reply (w : Word) : (s.setPc w).reply = s.reply := rfl

/-! ### setStack -/

@[simp] theorem State.setStack_v (k : Vector Word 16) (n : Fin 17) : (s.setStack k n).v = s.v := rfl
@[simp] theorem State.setStack_i (k : Vector Word 16) (n : Fin 17) : (s.setStack k n).i = s.i := rfl
@[simp] theorem State.setStack_pc (k : Vector Word 16) (n : Fin 17) : (s.setStack k n).pc = s.pc := rfl
@[simp] theorem State.setStack_stack (k : Vector Word 16) (n : Fin 17) : (s.setStack k n).stack = k := rfl
@[simp] theorem State.setStack_sp (k : Vector Word 16) (n : Fin 17) : (s.setStack k n).sp = n := rfl
@[simp] theorem State.setStack_dt (k : Vector Word 16) (n : Fin 17) : (s.setStack k n).dt = s.dt := rfl
@[simp] theorem State.setStack_st (k : Vector Word 16) (n : Fin 17) : (s.setStack k n).st = s.st := rfl
@[simp] theorem State.setStack_mem (k : Vector Word 16) (n : Fin 17) : (s.setStack k n).mem = s.mem := rfl
@[simp] theorem State.setStack_gfx (k : Vector Word 16) (n : Fin 17) : (s.setStack k n).gfx = s.gfx := rfl
@[simp] theorem State.setStack_keys (k : Vector Word 16) (n : Fin 17) : (s.setStack k n).keys = s.keys := rfl
@[simp] theorem State.setStack_halt (k : Vector Word 16) (n : Fin 17) : (s.setStack k n).halt = s.halt := rfl
@[simp] theorem State.setStack_params (k : Vector Word 16) (n : Fin 17) : (s.setStack k n).params = s.params := rfl
@[simp] theorem State.setStack_draws (k : Vector Word 16) (n : Fin 17) : (s.setStack k n).draws = s.draws := rfl
@[simp] theorem State.setStack_reply (k : Vector Word 16) (n : Fin 17) : (s.setStack k n).reply = s.reply := rfl

/-! ### setDt -/

@[simp] theorem State.setDt_v (b : Byte) : (s.setDt b).v = s.v := rfl
@[simp] theorem State.setDt_i (b : Byte) : (s.setDt b).i = s.i := rfl
@[simp] theorem State.setDt_pc (b : Byte) : (s.setDt b).pc = s.pc := rfl
@[simp] theorem State.setDt_stack (b : Byte) : (s.setDt b).stack = s.stack := rfl
@[simp] theorem State.setDt_sp (b : Byte) : (s.setDt b).sp = s.sp := rfl
@[simp] theorem State.setDt_dt (b : Byte) : (s.setDt b).dt = b := rfl
@[simp] theorem State.setDt_st (b : Byte) : (s.setDt b).st = s.st := rfl
@[simp] theorem State.setDt_mem (b : Byte) : (s.setDt b).mem = s.mem := rfl
@[simp] theorem State.setDt_gfx (b : Byte) : (s.setDt b).gfx = s.gfx := rfl
@[simp] theorem State.setDt_keys (b : Byte) : (s.setDt b).keys = s.keys := rfl
@[simp] theorem State.setDt_halt (b : Byte) : (s.setDt b).halt = s.halt := rfl
@[simp] theorem State.setDt_params (b : Byte) : (s.setDt b).params = s.params := rfl
@[simp] theorem State.setDt_draws (b : Byte) : (s.setDt b).draws = s.draws := rfl
@[simp] theorem State.setDt_reply (b : Byte) : (s.setDt b).reply = s.reply := rfl

/-! ### setSt -/

@[simp] theorem State.setSt_v (b : Byte) : (s.setSt b).v = s.v := rfl
@[simp] theorem State.setSt_i (b : Byte) : (s.setSt b).i = s.i := rfl
@[simp] theorem State.setSt_pc (b : Byte) : (s.setSt b).pc = s.pc := rfl
@[simp] theorem State.setSt_stack (b : Byte) : (s.setSt b).stack = s.stack := rfl
@[simp] theorem State.setSt_sp (b : Byte) : (s.setSt b).sp = s.sp := rfl
@[simp] theorem State.setSt_dt (b : Byte) : (s.setSt b).dt = s.dt := rfl
@[simp] theorem State.setSt_st (b : Byte) : (s.setSt b).st = b := rfl
@[simp] theorem State.setSt_mem (b : Byte) : (s.setSt b).mem = s.mem := rfl
@[simp] theorem State.setSt_gfx (b : Byte) : (s.setSt b).gfx = s.gfx := rfl
@[simp] theorem State.setSt_keys (b : Byte) : (s.setSt b).keys = s.keys := rfl
@[simp] theorem State.setSt_halt (b : Byte) : (s.setSt b).halt = s.halt := rfl
@[simp] theorem State.setSt_params (b : Byte) : (s.setSt b).params = s.params := rfl
@[simp] theorem State.setSt_draws (b : Byte) : (s.setSt b).draws = s.draws := rfl
@[simp] theorem State.setSt_reply (b : Byte) : (s.setSt b).reply = s.reply := rfl

/-! ### setMem -/

@[simp] theorem State.setMem_v (m : Memory) : (s.setMem m).v = s.v := rfl
@[simp] theorem State.setMem_i (m : Memory) : (s.setMem m).i = s.i := rfl
@[simp] theorem State.setMem_pc (m : Memory) : (s.setMem m).pc = s.pc := rfl
@[simp] theorem State.setMem_stack (m : Memory) : (s.setMem m).stack = s.stack := rfl
@[simp] theorem State.setMem_sp (m : Memory) : (s.setMem m).sp = s.sp := rfl
@[simp] theorem State.setMem_dt (m : Memory) : (s.setMem m).dt = s.dt := rfl
@[simp] theorem State.setMem_st (m : Memory) : (s.setMem m).st = s.st := rfl
@[simp] theorem State.setMem_mem (m : Memory) : (s.setMem m).mem = m := rfl
@[simp] theorem State.setMem_gfx (m : Memory) : (s.setMem m).gfx = s.gfx := rfl
@[simp] theorem State.setMem_keys (m : Memory) : (s.setMem m).keys = s.keys := rfl
@[simp] theorem State.setMem_halt (m : Memory) : (s.setMem m).halt = s.halt := rfl
@[simp] theorem State.setMem_params (m : Memory) : (s.setMem m).params = s.params := rfl
@[simp] theorem State.setMem_draws (m : Memory) : (s.setMem m).draws = s.draws := rfl
@[simp] theorem State.setMem_reply (m : Memory) : (s.setMem m).reply = s.reply := rfl

/-! ### setGfx -/

@[simp] theorem State.setGfx_v (g : Gfx) : (s.setGfx g).v = s.v := rfl
@[simp] theorem State.setGfx_i (g : Gfx) : (s.setGfx g).i = s.i := rfl
@[simp] theorem State.setGfx_pc (g : Gfx) : (s.setGfx g).pc = s.pc := rfl
@[simp] theorem State.setGfx_stack (g : Gfx) : (s.setGfx g).stack = s.stack := rfl
@[simp] theorem State.setGfx_sp (g : Gfx) : (s.setGfx g).sp = s.sp := rfl
@[simp] theorem State.setGfx_dt (g : Gfx) : (s.setGfx g).dt = s.dt := rfl
@[simp] theorem State.setGfx_st (g : Gfx) : (s.setGfx g).st = s.st := rfl
@[simp] theorem State.setGfx_mem (g : Gfx) : (s.setGfx g).mem = s.mem := rfl
@[simp] theorem State.setGfx_gfx (g : Gfx) : (s.setGfx g).gfx = g := rfl
@[simp] theorem State.setGfx_keys (g : Gfx) : (s.setGfx g).keys = s.keys := rfl
@[simp] theorem State.setGfx_halt (g : Gfx) : (s.setGfx g).halt = s.halt := rfl
@[simp] theorem State.setGfx_params (g : Gfx) : (s.setGfx g).params = s.params := rfl
@[simp] theorem State.setGfx_draws (g : Gfx) : (s.setGfx g).draws = s.draws := rfl
@[simp] theorem State.setGfx_reply (g : Gfx) : (s.setGfx g).reply = s.reply := rfl

/-! ### setHalt -/

@[simp] theorem State.setHalt_v (f : Option FaultRecord) : (s.setHalt f).v = s.v := rfl
@[simp] theorem State.setHalt_i (f : Option FaultRecord) : (s.setHalt f).i = s.i := rfl
@[simp] theorem State.setHalt_pc (f : Option FaultRecord) : (s.setHalt f).pc = s.pc := rfl
@[simp] theorem State.setHalt_stack (f : Option FaultRecord) : (s.setHalt f).stack = s.stack := rfl
@[simp] theorem State.setHalt_sp (f : Option FaultRecord) : (s.setHalt f).sp = s.sp := rfl
@[simp] theorem State.setHalt_dt (f : Option FaultRecord) : (s.setHalt f).dt = s.dt := rfl
@[simp] theorem State.setHalt_st (f : Option FaultRecord) : (s.setHalt f).st = s.st := rfl
@[simp] theorem State.setHalt_mem (f : Option FaultRecord) : (s.setHalt f).mem = s.mem := rfl
@[simp] theorem State.setHalt_gfx (f : Option FaultRecord) : (s.setHalt f).gfx = s.gfx := rfl
@[simp] theorem State.setHalt_keys (f : Option FaultRecord) : (s.setHalt f).keys = s.keys := rfl
@[simp] theorem State.setHalt_halt (f : Option FaultRecord) : (s.setHalt f).halt = f := rfl
@[simp] theorem State.setHalt_params (f : Option FaultRecord) : (s.setHalt f).params = s.params := rfl
@[simp] theorem State.setHalt_draws (f : Option FaultRecord) : (s.setHalt f).draws = s.draws := rfl
@[simp] theorem State.setHalt_reply (f : Option FaultRecord) : (s.setHalt f).reply = s.reply := rfl

/-! ### setDraws -/

@[simp] theorem State.setDraws_v (n : Nat) : (s.setDraws n).v = s.v := rfl
@[simp] theorem State.setDraws_i (n : Nat) : (s.setDraws n).i = s.i := rfl
@[simp] theorem State.setDraws_pc (n : Nat) : (s.setDraws n).pc = s.pc := rfl
@[simp] theorem State.setDraws_stack (n : Nat) : (s.setDraws n).stack = s.stack := rfl
@[simp] theorem State.setDraws_sp (n : Nat) : (s.setDraws n).sp = s.sp := rfl
@[simp] theorem State.setDraws_dt (n : Nat) : (s.setDraws n).dt = s.dt := rfl
@[simp] theorem State.setDraws_st (n : Nat) : (s.setDraws n).st = s.st := rfl
@[simp] theorem State.setDraws_mem (n : Nat) : (s.setDraws n).mem = s.mem := rfl
@[simp] theorem State.setDraws_gfx (n : Nat) : (s.setDraws n).gfx = s.gfx := rfl
@[simp] theorem State.setDraws_keys (n : Nat) : (s.setDraws n).keys = s.keys := rfl
@[simp] theorem State.setDraws_halt (n : Nat) : (s.setDraws n).halt = s.halt := rfl
@[simp] theorem State.setDraws_params (n : Nat) : (s.setDraws n).params = s.params := rfl
@[simp] theorem State.setDraws_draws (n : Nat) : (s.setDraws n).draws = n := rfl
@[simp] theorem State.setDraws_reply (n : Nat) : (s.setDraws n).reply = s.reply := rfl

/-! ### setReply -/

@[simp] theorem State.setReply_v (r : Reply) : (s.setReply r).v = s.v := rfl
@[simp] theorem State.setReply_i (r : Reply) : (s.setReply r).i = s.i := rfl
@[simp] theorem State.setReply_pc (r : Reply) : (s.setReply r).pc = s.pc := rfl
@[simp] theorem State.setReply_stack (r : Reply) : (s.setReply r).stack = s.stack := rfl
@[simp] theorem State.setReply_sp (r : Reply) : (s.setReply r).sp = s.sp := rfl
@[simp] theorem State.setReply_dt (r : Reply) : (s.setReply r).dt = s.dt := rfl
@[simp] theorem State.setReply_st (r : Reply) : (s.setReply r).st = s.st := rfl
@[simp] theorem State.setReply_mem (r : Reply) : (s.setReply r).mem = s.mem := rfl
@[simp] theorem State.setReply_gfx (r : Reply) : (s.setReply r).gfx = s.gfx := rfl
@[simp] theorem State.setReply_keys (r : Reply) : (s.setReply r).keys = s.keys := rfl
@[simp] theorem State.setReply_halt (r : Reply) : (s.setReply r).halt = s.halt := rfl
@[simp] theorem State.setReply_params (r : Reply) : (s.setReply r).params = s.params := rfl
@[simp] theorem State.setReply_draws (r : Reply) : (s.setReply r).draws = s.draws := rfl
@[simp] theorem State.setReply_reply (r : Reply) : (s.setReply r).reply = some r := rfl

end Sys2Proof.Machine
end

