-- ==== Sys2Proof/Laws/Memory.lean ====
section
/-! SUPPORT. Memory: a read after a write, the canonical form kept by every operation, and what each memory
access can do (20_memory.md R51 to R56). -/

namespace Sys2Proof.Machine

variable (font : Font)

/-! ### Cells -/

theorem lookup_insert (a : Nat) (b : Byte) (m : Memory) (k : Nat) :
    Memory.lookup (Memory.insert a b m) k = if k = a then some b else Memory.lookup m k := by
  induction m with
  | nil => simp [Memory.insert, Memory.lookup, eq_comm]
  | cons c m ih =>
    simp only [Memory.insert]
    split
    · simp [Memory.lookup, eq_comm (a := a)]
    · split
      · rename_i _ h
        subst h
        by_cases hk : k = c.1 <;> simp [Memory.lookup, hk, eq_comm (a := c.1)]
      · rename_i _ h
        rw [Memory.lookup, Memory.lookup, ih]
        by_cases hc : c.1 = k
        · have : k ≠ a := fun e => h (hc.trans e)
          simp [hc, this]
        · simp [hc]

theorem lookup_remove (a : Nat) (m : Memory) (k : Nat) :
    Memory.lookup (Memory.remove a m) k = if k = a then none else Memory.lookup m k := by
  induction m with
  | nil => simp [Memory.remove, Memory.lookup]
  | cons c m ih =>
    simp only [Memory.remove, List.filter_cons] at ih ⊢
    by_cases h : c.1 = a
    · subst h
      rw [if_neg (by simp), ih, Memory.lookup]
      by_cases hk : k = c.1 <;> simp [hk, eq_comm (a := c.1)]
    · rw [if_pos (by simpa using h), Memory.lookup, Memory.lookup, ih]
      by_cases hc : c.1 = k
      · have : k ≠ a := fun e => h (hc.trans e)
        simp [hc, this]
      · simp [hc]

/-- A read after a write: the byte written at its address, the old byte everywhere else. -/
theorem read_write (m : Memory) (a : Nat) (b : Byte) (k : Nat) :
    Memory.read font (Memory.write font m a b) k = if k = a then b else Memory.read font m k := by
  unfold Memory.read Memory.write
  split
  · rw [lookup_remove]
    split <;> simp_all
  · rw [lookup_insert]
    split <;> simp_all

/-- A read after a block write. -/
theorem read_writeBytes (bytes : List Byte) (m : Memory) (a k : Nat) :
    Memory.read font (Memory.writeBytes font m a bytes) k =
      if a ≤ k then bytes.getD (k - a) (Memory.read font m k) else Memory.read font m k := by
  induction bytes generalizing m a with
  | nil => simp [Memory.writeBytes]
  | cons b bs ih =>
    rw [Memory.writeBytes, ih, read_write]
    by_cases h : a ≤ k
    · rcases Nat.eq_or_lt_of_le h with rfl | h2
      · simp
      · have e : k - a = (k - (a + 1)) + 1 := by omega
        have h3 : k ≠ a := by omega
        rw [if_pos h, if_pos (show a + 1 ≤ k by omega), if_neg h3, e]
        simp
    · have h2 : ¬ a + 1 ≤ k := by omega
      have h3 : k ≠ a := by omega
      simp [h, h2, h3]

/-! ### The canonical form -/

theorem mem_insert {a : Nat} {b : Byte} {m : Memory} {c : Host.Cell} (h : c ∈ Memory.insert a b m) :
    c = (a, b) ∨ c ∈ m := by
  induction m with
  | nil => simpa [Memory.insert] using h
  | cons d m ih =>
    simp only [Memory.insert] at h
    split at h
    · simpa using h
    · split at h
      · rcases List.mem_cons.mp h with h | h
        · exact .inl h
        · exact .inr (List.mem_cons_of_mem _ h)
      · rcases List.mem_cons.mp h with rfl | h
        · exact .inr List.mem_cons_self
        · exact (ih h).imp_right (List.mem_cons_of_mem _)

theorem insert_pairwise (a : Nat) (b : Byte) (m : Memory) (h : m.Pairwise (fun c d => c.1 < d.1)) :
    (Memory.insert a b m).Pairwise (fun c d => c.1 < d.1) := by
  induction m with
  | nil => simp [Memory.insert]
  | cons c m ih =>
    obtain ⟨hc, hm⟩ := List.pairwise_cons.mp h
    simp only [Memory.insert]
    split
    · rename_i hlt
      refine List.pairwise_cons.mpr ⟨fun d hd => ?_, h⟩
      rcases List.mem_cons.mp hd with rfl | hd
      · exact hlt
      · exact Nat.lt_trans hlt (hc d hd)
    · split
      · rename_i _ heq
        exact List.pairwise_cons.mpr ⟨fun d hd => heq ▸ hc d hd, hm⟩
      · refine List.pairwise_cons.mpr ⟨fun d hd => ?_, ih hm⟩
        rcases mem_insert hd with rfl | hd
        · simp only
          omega
        · exact hc d hd

/-- A write inside memory keeps the canonical form. -/
theorem write_wf {m : Memory} (a : Nat) (b : Byte) (ha : a < Config.memSize) (h : Memory.wf font m) :
    Memory.wf font (Memory.write font m a b) := by
  unfold Memory.write
  split
  · exact ⟨h.1.filter _, fun c hc => h.2 c (List.mem_filter.mp hc).1⟩
  · rename_i hb
    refine ⟨insert_pairwise a b m h.1, fun c hc => ?_⟩
    rcases mem_insert hc with rfl | hc
    · exact ⟨ha, hb⟩
    · exact h.2 c hc

/-- A block write inside memory keeps the canonical form. -/
theorem writeBytes_wf (bytes : List Byte) {m : Memory} (a : Nat) (ha : a + bytes.length ≤ Config.memSize)
    (h : Memory.wf font m) : Memory.wf font (Memory.writeBytes font m a bytes) := by
  induction bytes generalizing m a with
  | nil => exact h
  | cons b bs ih =>
    have hlen : a + (bs.length + 1) ≤ Config.memSize := ha
    exact ih (a + 1) (by omega) (write_wf font a b (by omega) h)

/-- The memory that reset leaves is in canonical form. -/
theorem resetWith_memWf (p : Params) : Memory.wf (State.resetWith p).params.font (State.resetWith p).mem :=
  ⟨List.Pairwise.nil, fun _ h => nomatch h⟩

/-! ### Address checks -/

/-- The bound check fails exactly when a byte lies at or above 0x1000, and names the lowest such address. -/
theorem firstOutOfBounds_eq (addr n : Nat) :
    firstOutOfBounds addr n = if n = 0 ∨ addr + n ≤ 0x1000 then none else some (max addr 0x1000) := by
  induction n generalizing addr with
  | zero => simp [firstOutOfBounds]
  | succ n ih =>
    rw [firstOutOfBounds, ih]
    split
    · rw [if_neg (by omega)]
      congr 1
      omega
    · rcases Nat.eq_zero_or_pos n with rfl | hn
      · rw [if_pos (by omega), if_pos (by omega)]
      · by_cases h : addr + (n + 1) ≤ 0x1000
        · rw [if_pos (by omega), if_pos (by omega)]
        · rw [if_neg (by omega), if_neg (by omega)]
          congr 1
          omega

/-- The write checks pass exactly when every byte is inside memory and, under font protection, above the
font. -/
theorem firstWriteFault_eq_none (fp : Bool) (addr n : Nat) :
    firstWriteFault fp addr n = none ↔ n = 0 ∨ (addr + n ≤ 0x1000 ∧ (fp = true → 0x50 ≤ addr)) := by
  induction n generalizing addr with
  | zero => simp [firstWriteFault]
  | succ n ih =>
    rw [firstWriteFault]
    split
    · simp
      omega
    · split
      · rename_i _ h
        simp only [Bool.and_eq_true, decide_eq_true_eq] at h
        simp [h.1]
        omega
      · rename_i _ h
        simp only [Bool.and_eq_true, decide_eq_true_eq, not_and] at h
        rw [ih]
        constructor
        · intro h'
          refine .inr ⟨by omega, fun hf => ?_⟩
          have := h hf
          omega
        · rintro (h' | ⟨h1, h2⟩)
          · omega
          · rcases Nat.eq_zero_or_pos n with hn | hn
            · exact .inl hn
            · exact .inr ⟨by omega, fun hf => by have := h2 hf; omega⟩

/-- A write to at least one byte of the protected font faults there. -/
theorem firstWriteFault_protected (addr n : Nat) (hn : 0 < n) (h : addr ≤ 0x4F) :
    firstWriteFault true addr n = some (.protectedWrite addr) := by
  obtain ⟨m, rfl⟩ : ∃ m, n = m + 1 := ⟨n - 1, by omega⟩
  rw [firstWriteFault, if_neg (by omega)]
  simp [h]

/-- Above the protected font, or without protection, the first failing check is the bound. -/
theorem firstWriteFault_bound (fp : Bool) (addr n : Nat) (hfp : fp = true → 0x50 ≤ addr) :
    firstWriteFault fp addr n = (firstOutOfBounds addr n).map FaultKind.outOfBoundsAddress := by
  induction n generalizing addr with
  | zero => rfl
  | succ n ih =>
    rw [firstWriteFault, firstOutOfBounds]
    split
    · rfl
    · rw [if_neg, ih]
      · intro hf
        have := hfp hf
        omega
      · simp only [Bool.and_eq_true, decide_eq_true_eq, not_and]
        intro hf
        have := hfp hf
        omega

/-! ### Accesses -/

@[simp] theorem bytes_length (s : State) (addr n : Nat) : (s.bytes addr n).length = n := by
  simp [State.bytes]

theorem bytes_getElem (s : State) (addr n k : Nat) (h : k < (s.bytes addr n).length) :
    (s.bytes addr n)[k] = s.byte (addr + k) := by
  simp [State.bytes]

/-- What MemRead can do: the n bytes where all are inside memory, otherwise the fault at the lowest address
outside. -/
theorem memRead_eq (s : State) (addr n : Nat) :
    memRead s addr n =
      if n = 0 ∨ addr + n ≤ 0x1000 then .ok (s.bytes addr n)
      else .error (.outOfBoundsAddress (max addr 0x1000)) := by
  rw [memRead, firstOutOfBounds_eq]
  split <;> simp_all

/-- What ReadWord can do. -/
theorem readWord_eq (s : State) (addr : Nat) :
    readWord s addr =
      if addr + 2 ≤ 0x1000 then .ok (bigEndian (s.byte addr) (s.byte (addr + 1)))
      else .error (.outOfBoundsAddress (max addr 0x1000)) := by
  rw [readWord, firstOutOfBounds_eq]
  split <;> simp_all

/-- What the fetch can do. -/
theorem fetch_eq (s : State) :
    fetch s =
      if s.pc.toNat ≤ 0x0FFE then .ok (bigEndian (s.byte s.pc.toNat) (s.byte (s.pc.toNat + 1)))
      else .error (.outOfBoundsAddress (max s.pc.toNat 0x1000)) := by
  rw [fetch, readWord_eq]
  split <;> rename_i h
  · rw [if_pos (by omega)]
  · rw [if_neg (by omega)]

/-- What MemWrite can do when it writes: memory alone changes, and the checks passed. -/
theorem memWrite_ok {s t : State} {addr : Nat} {bytes : List Byte} (h : memWrite s addr bytes = .ok t) :
    t = s.setMem (Memory.writeBytes s.params.font s.mem addr bytes) ∧
      (bytes.length = 0 ∨
        (addr + bytes.length ≤ 0x1000 ∧ (s.params.fontProtect = true → 0x50 ≤ addr))) := by
  unfold memWrite at h
  split at h
  · cases h
  · rename_i hn
    cases h
    exact ⟨rfl, (firstWriteFault_eq_none _ _ _).mp hn⟩

/-- When MemWrite writes. -/
theorem memWrite_of_ok {s : State} {addr : Nat} {bytes : List Byte}
    (h : addr + bytes.length ≤ 0x1000) (hp : s.params.fontProtect = true → 0x50 ≤ addr) :
    memWrite s addr bytes = .ok (s.setMem (Memory.writeBytes s.params.font s.mem addr bytes)) := by
  rw [memWrite, (firstWriteFault_eq_none _ _ _).mpr (.inr ⟨h, hp⟩)]

/-- MemWrite of at least one byte into the protected font. -/
theorem memWrite_protected {s : State} {addr : Nat} {bytes : List Byte} (h0 : 0 < bytes.length)
    (h : addr ≤ 0x4F) (hp : s.params.fontProtect = true) :
    memWrite s addr bytes = .error (.protectedWrite addr) := by
  rw [memWrite, hp, firstWriteFault_protected _ _ h0 h]

/-- MemWrite past the end of memory, outside the protected font. -/
theorem memWrite_bound {s : State} {addr : Nat} {bytes : List Byte} (h0 : 0 < bytes.length)
    (h : 0x1000 < addr + bytes.length) (hp : s.params.fontProtect = true → 0x50 ≤ addr) :
    memWrite s addr bytes = .error (.outOfBoundsAddress (max addr 0x1000)) := by
  rw [memWrite, firstWriteFault_bound _ _ _ hp, firstOutOfBounds_eq, if_neg (by omega)]
  rfl

/-- The faults MemWrite can answer. -/
theorem memWrite_error {s : State} {addr : Nat} {bytes : List Byte} {k : FaultKind}
    (h : memWrite s addr bytes = .error k) :
    (s.params.fontProtect = true ∧ addr ≤ 0x4F ∧ k = .protectedWrite addr) ∨
      k = .outOfBoundsAddress (max addr 0x1000) := by
  have h0 : 0 < bytes.length := by
    cases bytes with
    | nil => cases h
    | cons b bs => simp
  by_cases hp : s.params.fontProtect = true → 0x50 ≤ addr
  · by_cases hb : 0x1000 < addr + bytes.length
    · rw [memWrite_bound h0 hb hp] at h
      cases h
      exact .inr rfl
    · rw [memWrite_of_ok (by omega) hp] at h
      cases h
  · have hp1 : s.params.fontProtect = true := by
      by_contra hc
      exact hp fun h' => absurd h' hc
    have hp2 : addr ≤ 0x4F := by
      by_contra hc
      exact hp fun _ => by omega
    rw [memWrite_protected h0 hp2 hp1] at h
    cases h
    exact .inl ⟨hp1, hp2, rfl⟩

/-- A MemWrite keeps the canonical form of memory. -/
theorem memWrite_wf {s t : State} {addr : Nat} {bytes : List Byte} (h : memWrite s addr bytes = .ok t)
    (hs : Memory.wf s.params.font s.mem) : Memory.wf t.params.font t.mem := by
  obtain ⟨rfl, h0 | ⟨hb, _⟩⟩ := memWrite_ok h
  · cases bytes with
    | nil => exact hs
    | cons b bs => simp at h0
  · exact writeBytes_wf _ _ _ hb hs

/-- A byte of memory after a block write, seen from the state. -/
theorem byte_setMem_writeBytes (s : State) (addr : Nat) (bytes : List Byte) (k : Nat) :
    (s.setMem (Memory.writeBytes s.params.font s.mem addr bytes)).byte k =
      if addr ≤ k then bytes.getD (k - addr) (s.byte k) else s.byte k := by
  simp only [State.byte, State.setMem_params, State.setMem_mem]
  exact read_writeBytes _ _ _ _ _

end Sys2Proof.Machine
end

