-- ==== Sys2Proof/Laws/Display.lean ====
section
/-! SUPPORT. The graphics buffer: what one pixel operation does, and what drawing a whole sprite does to every
cell and to the hit (43_display.md R180, R183). -/

namespace Sys2Proof.Machine

/-- A read of one cell after a write of one cell. -/
theorem pixel_putPixel (g : Gfx) (x cx : Fin 64) (y cy : Fin 32) (b : Bool) :
    pixel (putPixel g x y b) cx cy = if cx = x ∧ cy = y then b else pixel g cx cy := by
  simp only [pixel, putPixel, Fin.getElem_fin, Vector.getElem_set, Fin.ext_iff]
  by_cases hx : x.val = cx.val
  · by_cases hy : y.val = cy.val
    · simp [hx, hy]
    · simp [hx, hy, Ne.symm hy]
  · simp [hx, Ne.symm hx]

@[simp] theorem pixel_clearAll (x : Fin 64) (y : Fin 32) : pixel clearAll x y = false := by
  simp [pixel, clearAll]

/-- Plotting a 1 bit flips its cell alone. -/
theorem pixel_plot (x cx : Fin 64) (y cy : Fin 32) (acc : Gfx × Bool) :
    pixel (plot x y acc).1 cx cy = ((pixel acc.1 cx cy).xor (decide (cx = x) && decide (cy = y))) := by
  unfold plot setPixel clearPixel
  by_cases h : cx = x ∧ cy = y
  · obtain ⟨rfl, rfl⟩ := h
    split <;> rename_i hp <;> simp_all [pixel_putPixel]
  · have h2 : (decide (cx = x) && decide (cy = y)) = false := by simpa using h
    split <;> simp [pixel_putPixel, h, h2]

/-- Plotting a 1 bit is a hit exactly when its cell was on. -/
theorem hit_plot (x : Fin 64) (y : Fin 32) (acc : Gfx × Bool) :
    (plot x y acc).2 = (acc.2 || pixel acc.1 x y) := by
  unfold plot
  split <;> simp_all

theorem spriteColumn_lt (x0 : Nat) (cx : Fin 64) : spriteColumn x0 cx < 64 := Nat.mod_lt _ (by decide)

theorem spriteLine_lt (y0 : Nat) (cy : Fin 32) : spriteLine y0 cy < 32 := Nat.mod_lt _ (by decide)

/-- Cell column and sprite column determine each other. -/
theorem spriteColumn_eq_iff (x0 c : Nat) (hc : c < 64) (cx : Fin 64) :
    spriteColumn x0 cx = c ↔ cx = wrapX (x0 + c) := by
  have := cx.isLt
  simp only [spriteColumn, Fin.ext_iff, wrapX]
  omega

/-- Cell line and sprite line determine each other. -/
theorem spriteLine_eq_iff (y0 r : Nat) (hr : r < 32) (cy : Fin 32) :
    spriteLine y0 cy = r ↔ cy = wrapY (y0 + r) := by
  have := cy.isLt
  simp only [spriteLine, Fin.ext_iff, wrapY]
  omega

/-- The first k columns of a sprite row. -/
theorem drawColumns_spec (x0 : Nat) (py : Fin 32) (row : Byte) (acc : Gfx × Bool) (k : Nat) (hk : k ≤ 8) :
    let out := (List.range k).foldl
      (fun acc c => if row.getLsbD (7 - c) then plot (wrapX (x0 + c)) py acc else acc) acc
    (∀ cx cy, pixel out.1 cx cy = ((pixel acc.1 cx cy).xor
      (decide (spriteColumn x0 cx < k) && row.getLsbD (7 - spriteColumn x0 cx) && decide (cy = py)))) ∧
    (out.2 = true ↔ acc.2 = true ∨ ∃ cx, spriteColumn x0 cx < k ∧
      row.getLsbD (7 - spriteColumn x0 cx) = true ∧ pixel acc.1 cx py = true) := by
  induction k with
  | zero => simp
  | succ k ih =>
    obtain ⟨ihp, ihh⟩ := ih (by omega)
    have hcol : ∀ cx, spriteColumn x0 cx = k ↔ cx = wrapX (x0 + k) :=
      fun cx => spriteColumn_eq_iff x0 k (by omega) cx
    have hself : spriteColumn x0 (wrapX (x0 + k)) = k := (hcol _).mpr rfl
    simp only [List.range_succ, List.foldl_append, List.foldl_cons, List.foldl_nil] at ihp ihh ⊢
    split
    · rename_i hbit
      constructor
      · intro cx cy
        rw [pixel_plot, ihp]
        by_cases hc : cx = wrapX (x0 + k)
        · subst hc
          simp [hself, hbit]
        · have : spriteColumn x0 cx ≠ k := fun e => hc ((hcol cx).mp e)
          have e : decide (spriteColumn x0 cx < k + 1) = decide (spriteColumn x0 cx < k) := by
            rw [decide_eq_decide]
            omega
          rw [e]
          simp [hc]
      · rw [hit_plot, Bool.or_eq_true, ihh, ihp]
        simp only [hself, Nat.lt_irrefl, decide_false, Bool.false_and, Bool.xor_false]
        constructor
        · rintro ((h | ⟨cx, h1, h2, h3⟩) | h)
          · exact .inl h
          · exact .inr ⟨cx, by omega, h2, h3⟩
          · exact .inr ⟨_, by rw [hself]; omega, by rw [hself]; exact hbit, h⟩
        · rintro (h | ⟨cx, h1, h2, h3⟩)
          · exact .inl (.inl h)
          · by_cases hc : cx = wrapX (x0 + k)
            · exact .inr (hc ▸ h3)
            · have : spriteColumn x0 cx ≠ k := fun e => hc ((hcol cx).mp e)
              exact .inl (.inr ⟨cx, by omega, h2, h3⟩)
    · rename_i hbit
      constructor
      · intro cx cy
        rw [ihp]
        by_cases hc : spriteColumn x0 cx = k
        · simp [hc, hbit]
        · have e : decide (spriteColumn x0 cx < k + 1) = decide (spriteColumn x0 cx < k) := by
            rw [decide_eq_decide]
            omega
          rw [e]
      · rw [ihh]
        refine or_congr_right (exists_congr fun cx => ?_)
        constructor
        · rintro ⟨h1, h2⟩
          exact ⟨by omega, h2⟩
        · rintro ⟨h1, h2, h3⟩
          refine ⟨?_, h2, h3⟩
          rcases Nat.lt_succ_iff_lt_or_eq.mp h1 with h | h
          · exact h
          · rw [h] at h2
            exact absurd h2 hbit

/-- What drawing one sprite row does. -/
theorem drawRow_spec (x0 : Nat) (py : Fin 32) (row : Byte) (acc : Gfx × Bool) :
    (∀ cx cy, pixel (drawRow x0 py row acc).1 cx cy = ((pixel acc.1 cx cy).xor
      (decide (spriteColumn x0 cx < 8) && row.getLsbD (7 - spriteColumn x0 cx) && decide (cy = py)))) ∧
    ((drawRow x0 py row acc).2 = true ↔ acc.2 = true ∨ ∃ cx, spriteColumn x0 cx < 8 ∧
      row.getLsbD (7 - spriteColumn x0 cx) = true ∧ pixel acc.1 cx py = true) :=
  drawColumns_spec x0 py row acc 8 (Nat.le_refl 8)

/-- The cells that the rows from number r on flip. -/
def rowsCover (x0 y0 r : Nat) (rows : List Byte) (cx : Fin 64) (cy : Fin 32) : Bool :=
  decide (spriteColumn x0 cx < 8) && decide (r ≤ spriteLine y0 cy) &&
    (rows.getD (spriteLine y0 cy - r) 0).getLsbD (7 - spriteColumn x0 cx)

theorem rowsCover_nil (x0 y0 r : Nat) (cx : Fin 64) (cy : Fin 32) : rowsCover x0 y0 r [] cx cy = false := by
  simp [rowsCover]

theorem rowsCover_cons_self (x0 y0 r : Nat) (row : Byte) (rows : List Byte) (cx : Fin 64) (cy : Fin 32)
    (h : spriteLine y0 cy = r) : rowsCover x0 y0 r (row :: rows) cx cy =
      (decide (spriteColumn x0 cx < 8) && row.getLsbD (7 - spriteColumn x0 cx)) := by
  simp [rowsCover, h]

theorem rowsCover_cons_other (x0 y0 r : Nat) (row : Byte) (rows : List Byte) (cx : Fin 64) (cy : Fin 32)
    (h : spriteLine y0 cy ≠ r) :
    rowsCover x0 y0 r (row :: rows) cx cy = rowsCover x0 y0 (r + 1) rows cx cy := by
  unfold rowsCover
  by_cases hr : r ≤ spriteLine y0 cy
  · have h1 : r + 1 ≤ spriteLine y0 cy := by omega
    have e : spriteLine y0 cy - r = (spriteLine y0 cy - (r + 1)) + 1 := by omega
    rw [e]
    simp [hr, h1]
  · have h1 : ¬ r + 1 ≤ spriteLine y0 cy := by omega
    simp [hr, h1]

theorem rowsCover_past (x0 y0 r : Nat) (rows : List Byte) (cx : Fin 64) (cy : Fin 32)
    (h : spriteLine y0 cy < r) : rowsCover x0 y0 r rows cx cy = false := by
  have : ¬ r ≤ spriteLine y0 cy := by omega
  simp [rowsCover, this]

/-- What drawing sprite rows does: every covered cell is flipped and no other, and the hit says that a
covered cell was on. -/
theorem drawRows_spec (x0 y0 : Nat) (rows : List Byte) (r : Nat) (hr : r + rows.length ≤ 32)
    (acc : Gfx × Bool) :
    (∀ cx cy, pixel (drawRows x0 y0 r rows acc).1 cx cy =
      ((pixel acc.1 cx cy).xor (rowsCover x0 y0 r rows cx cy))) ∧
    ((drawRows x0 y0 r rows acc).2 = true ↔ acc.2 = true ∨
      ∃ cx cy, rowsCover x0 y0 r rows cx cy = true ∧ pixel acc.1 cx cy = true) := by
  induction rows generalizing r acc with
  | nil => simp [drawRows, rowsCover_nil]
  | cons row rows ih =>
    have hlen : r + (rows.length + 1) ≤ 32 := hr
    have hline : ∀ cy, spriteLine y0 cy = r ↔ cy = wrapY (y0 + r) :=
      fun cy => spriteLine_eq_iff y0 r (by omega) cy
    obtain ⟨rp, rh⟩ := drawRow_spec x0 (wrapY (y0 + r)) row acc
    obtain ⟨ip, ihh⟩ := ih (r + 1) (by omega) (drawRow x0 (wrapY (y0 + r)) row acc)
    rw [drawRows]
    constructor
    · intro cx cy
      rw [ip, rp]
      by_cases h : spriteLine y0 cy = r
      · rw [rowsCover_cons_self _ _ _ _ _ _ _ h, rowsCover_past _ _ _ _ _ _ (by omega)]
        simp [(hline cy).mp h]
      · have hc : cy ≠ wrapY (y0 + r) := fun e => h ((hline cy).mpr e)
        rw [rowsCover_cons_other _ _ _ _ _ _ _ h]
        simp [hc]
    · rw [ihh, rh]
      constructor
      · rintro ((h | ⟨cx, h1, h2, h3⟩) | ⟨cx, cy, h1, h2⟩)
        · exact .inl h
        · refine .inr ⟨cx, _, ?_, h3⟩
          rw [rowsCover_cons_self _ _ _ _ _ _ _ ((hline _).mpr rfl)]
          simp [h1, h2]
        · have h : spriteLine y0 cy ≠ r := by
            intro e
            rw [rowsCover_past _ _ _ _ _ _ (by omega)] at h1
            cases h1
          have hc : cy ≠ wrapY (y0 + r) := fun e => h ((hline cy).mpr e)
          refine .inr ⟨cx, cy, ?_, ?_⟩
          · rw [rowsCover_cons_other _ _ _ _ _ _ _ h]
            exact h1
          · rw [rp] at h2
            simpa [hc] using h2
      · rintro (h | ⟨cx, cy, h1, h2⟩)
        · exact .inl (.inl h)
        · by_cases h : spriteLine y0 cy = r
          · rw [rowsCover_cons_self _ _ _ _ _ _ _ h] at h1
            simp only [Bool.and_eq_true, decide_eq_true_eq] at h1
            have e := (hline cy).mp h
            exact .inl (.inr ⟨cx, h1.1, h1.2, e ▸ h2⟩)
          · rw [rowsCover_cons_other _ _ _ _ _ _ _ h] at h1
            have hc : cy ≠ wrapY (y0 + r) := fun e => h ((hline cy).mpr e)
            refine .inr ⟨cx, cy, h1, ?_⟩
            rw [rp]
            simpa [hc] using h2

/-- The rows read from memory cover what the sprite covers. -/
theorem rowsCover_bytes (s : State) (x y n : Nibble) (cx : Fin 64) (cy : Fin 32) :
    rowsCover (spriteX x s) (spriteY y s) 0 (s.bytes s.ea n.toNat) cx cy = spriteCovers s x y n cx cy := by
  unfold rowsCover spriteCovers
  by_cases h : spriteLine (spriteY y s) cy < n.toNat
  · simp [h, State.bytes]
  · simp [h, State.bytes]

/-- Drawing the sprite read from memory: every covered cell is flipped and no other, and the hit says that a
covered cell was on. -/
theorem drawSprite_spec (s : State) (x y n : Nibble) :
    (∀ cx cy, pixel (drawSprite x y (s.bytes s.ea n.toNat) s).1 cx cy =
      ((pixel s.gfx cx cy).xor (spriteCovers s x y n cx cy))) ∧
    ((drawSprite x y (s.bytes s.ea n.toNat) s).2 = true ↔
      ∃ cx cy, spriteCovers s x y n cx cy = true ∧ pixel s.gfx cx cy = true) := by
  have hn := n.isLt
  have h := drawRows_spec (spriteX x s) (spriteY y s) (s.bytes s.ea n.toNat) 0
    (by rw [bytes_length]; omega) (s.gfx, false)
  simp only [rowsCover_bytes, Bool.false_eq_true, false_or] at h
  exact h

/-- Two buffers that agree on every cell are equal. -/
theorem gfx_ext {g h : Gfx} (e : ∀ cx cy, pixel g cx cy = pixel h cx cy) : g = h := by
  ext x hx y hy
  exact e ⟨x, hx⟩ ⟨y, hy⟩

end Sys2Proof.Machine
end

