-- ==== Sys2Proof/Laws/Ops.lean ====
section
/-! SUPPORT. What each shared operation does: reads of registers, memory and keys after an update, the stack,
the operand forms, the tick, and the ends of Execute. -/

namespace Sys2Proof.Machine

variable (s : State)

/-! ### Registers -/

/-- A register read after a register write. -/
@[simp] theorem getV_setV (r q : Nibble) (b : Byte) :
    (s.setV r b).getV q = if q = r then b else s.getV q := by
  simp only [State.getV, State.setV_v, Vector.getElem_set]
  by_cases h : q = r
  · simp [h]
  · have : r.toNat ≠ q.toNat := fun e => h (BitVec.eq_of_toNat_eq e.symm)
    simp [h, this]

/-- Result first, flag last: VF holds the flag, Vx the result unless x = 0xF, and no other register changes
(41_alu.md R130). -/
theorem getV_writeResultAndFlag (x q : Nibble) (result flag : Byte) :
    (writeResultAndFlag x result flag s).getV q =
      if q = vf then flag else if q = x then result else s.getV q := by
  simp [writeResultAndFlag]

@[simp] theorem getV_setI (w : Word) (q : Nibble) : (s.setI w).getV q = s.getV q := rfl
@[simp] theorem getV_setPc (w : Word) (q : Nibble) : (s.setPc w).getV q = s.getV q := rfl
@[simp] theorem getV_setStack (k : Vector Word 16) (n : Fin 17) (q : Nibble) : (s.setStack k n).getV q = s.getV q := rfl
@[simp] theorem getV_setDt (b : Byte) (q : Nibble) : (s.setDt b).getV q = s.getV q := rfl
@[simp] theorem getV_setSt (b : Byte) (q : Nibble) : (s.setSt b).getV q = s.getV q := rfl
@[simp] theorem getV_setMem (m : Memory) (q : Nibble) : (s.setMem m).getV q = s.getV q := rfl
@[simp] theorem getV_setGfx (g : Gfx) (q : Nibble) : (s.setGfx g).getV q = s.getV q := rfl
@[simp] theorem getV_setHalt (f : Option FaultRecord) (q : Nibble) : (s.setHalt f).getV q = s.getV q := rfl
@[simp] theorem getV_setDraws (n : Nat) (q : Nibble) : (s.setDraws n).getV q = s.getV q := rfl
@[simp] theorem getV_setReply (p : Reply) (q : Nibble) : (s.setReply p).getV q = s.getV q := rfl

/-! ### Memory bytes and keys -/

@[simp] theorem byte_setV (r : Nibble) (b : Byte) (a : Nat) : (s.setV r b).byte a = s.byte a := rfl
@[simp] theorem byte_setVs (w : Vector Byte 16) (a : Nat) : (s.setVs w).byte a = s.byte a := rfl
@[simp] theorem byte_setI (w : Word) (a : Nat) : (s.setI w).byte a = s.byte a := rfl
@[simp] theorem byte_setPc (w : Word) (a : Nat) : (s.setPc w).byte a = s.byte a := rfl
@[simp] theorem byte_setStack (k : Vector Word 16) (n : Fin 17) (a : Nat) : (s.setStack k n).byte a = s.byte a := rfl
@[simp] theorem byte_setDt (b : Byte) (a : Nat) : (s.setDt b).byte a = s.byte a := rfl
@[simp] theorem byte_setSt (b : Byte) (a : Nat) : (s.setSt b).byte a = s.byte a := rfl
@[simp] theorem byte_setGfx (g : Gfx) (a : Nat) : (s.setGfx g).byte a = s.byte a := rfl
@[simp] theorem byte_setHalt (f : Option FaultRecord) (a : Nat) : (s.setHalt f).byte a = s.byte a := rfl
@[simp] theorem byte_setDraws (n : Nat) (a : Nat) : (s.setDraws n).byte a = s.byte a := rfl
@[simp] theorem byte_setReply (p : Reply) (a : Nat) : (s.setReply p).byte a = s.byte a := rfl

@[simp] theorem key_setV (r : Nibble) (b : Byte) (q : Nibble) : (s.setV r b).key q = s.key q := rfl
@[simp] theorem key_setVs (w : Vector Byte 16) (q : Nibble) : (s.setVs w).key q = s.key q := rfl
@[simp] theorem key_setI (w : Word) (q : Nibble) : (s.setI w).key q = s.key q := rfl
@[simp] theorem key_setPc (w : Word) (q : Nibble) : (s.setPc w).key q = s.key q := rfl
@[simp] theorem key_setStack (k : Vector Word 16) (n : Fin 17) (q : Nibble) : (s.setStack k n).key q = s.key q := rfl
@[simp] theorem key_setDt (b : Byte) (q : Nibble) : (s.setDt b).key q = s.key q := rfl
@[simp] theorem key_setSt (b : Byte) (q : Nibble) : (s.setSt b).key q = s.key q := rfl
@[simp] theorem key_setMem (m : Memory) (q : Nibble) : (s.setMem m).key q = s.key q := rfl
@[simp] theorem key_setGfx (g : Gfx) (q : Nibble) : (s.setGfx g).key q = s.key q := rfl
@[simp] theorem key_setHalt (f : Option FaultRecord) (q : Nibble) : (s.setHalt f).key q = s.key q := rfl
@[simp] theorem key_setDraws (n : Nat) (q : Nibble) : (s.setDraws n).key q = s.key q := rfl
@[simp] theorem key_setReply (p : Reply) (q : Nibble) : (s.setReply p).key q = s.key q := rfl

/-! ### Stack (40_control.md R100, R101) -/

/-- What Push does when the stack is not full. -/
theorem push_of_lt (v : Word) (h : s.sp.val < 16) :
    push v s = .ok (s.setStack (s.stack.set s.sp.val v h) ⟨s.sp.val + 1, Nat.succ_lt_succ h⟩) := by
  rw [push, dif_pos h]

/-- Push on a full stack. -/
theorem push_of_full (v : Word) (h : ¬ s.sp.val < 16) : push v s = .error .stackOverflow := by
  rw [push, dif_neg h]

/-- Everything Push can do. -/
theorem push_cases (v : Word) :
    (∃ h : s.sp.val < 16,
      push v s = .ok (s.setStack (s.stack.set s.sp.val v h) ⟨s.sp.val + 1, Nat.succ_lt_succ h⟩)) ∨
    (s.sp.val = 16 ∧ push v s = .error .stackOverflow) := by
  by_cases h : s.sp.val < 16
  · exact .inl ⟨h, push_of_lt s v h⟩
  · exact .inr ⟨by have := s.sp.isLt; omega, push_of_full s v h⟩

/-- What Pop does when the stack holds n + 1 entries. -/
theorem pop_of_succ (n : Nat) (h : n + 1 < 17) (e : s.sp = ⟨n + 1, h⟩) :
    pop s = .ok (s.stack[n]'(Nat.lt_of_succ_lt_succ h), s.setStack s.stack ⟨n, Nat.lt_of_succ_lt h⟩) := by
  unfold pop
  split <;> rename_i e' <;> rw [e] at e' <;> simp only [Fin.mk.injEq] at e'
  · omega
  · obtain rfl : n = _ := Nat.succ.inj e'
    rfl

/-- Pop on an empty stack. -/
theorem pop_of_zero (e : s.sp = 0) : pop s = .error .stackUnderflow := by
  unfold pop
  split <;> rename_i e'
  · rfl
  · rw [e] at e'
    exact absurd (congrArg Fin.val e') (by simp)

/-- Everything Pop can do. -/
theorem pop_cases :
    (s.sp = 0 ∧ pop s = .error .stackUnderflow) ∨
    (∃ (n : Nat) (h : n + 1 < 17), s.sp = ⟨n + 1, h⟩ ∧
      pop s = .ok (s.stack[n]'(Nat.lt_of_succ_lt_succ h), s.setStack s.stack ⟨n, Nat.lt_of_succ_lt h⟩)) := by
  rcases hs : s.sp with ⟨_ | n, h⟩
  · exact .inl ⟨by simp, pop_of_zero s (by rw [hs]; rfl)⟩
  · exact .inr ⟨n, h, rfl, pop_of_succ s n h hs⟩

/-! ### Operand forms -/

/-- HexDigit of a value up to 0x0F, under both policies. -/
theorem hexDigit_of_le (p : HexDigitPolicy) (v : Byte) (h : v.toNat ≤ 0x0F) :
    hexDigit p v = .ok (v.setWidth 4) := if_pos h

/-- HexDigit of a value above 0x0F under the fault policy. -/
theorem hexDigit_fault (v : Byte) (h : 0x0F < v.toNat) :
    hexDigit .fault v = .error (.hexDigitOutOfRange v) := if_neg (by omega)

/-- HexDigit of any value under the mask policy. -/
theorem hexDigit_mask (v : Byte) : hexDigit .mask v = .ok (v.setWidth 4) := by
  unfold hexDigit
  split
  · rfl
  · refine congrArg Except.ok ?_
    ext k hk
    have : k = 0 ∨ k = 1 ∨ k = 2 ∨ k = 3 := by omega
    rcases this with rfl | rfl | rfl | rfl <;> simp

/-- Everything HexDigit can do. -/
theorem hexDigit_cases (p : HexDigitPolicy) (v : Byte) :
    hexDigit p v = .ok (v.setWidth 4) ∨
    (p = .fault ∧ 0x0F < v.toNat ∧ hexDigit p v = .error (.hexDigitOutOfRange v)) := by
  by_cases h : v.toNat ≤ 0x0F
  · exact .inl (hexDigit_of_le p v h)
  · cases p with
    | mask => exact .inl (hexDigit_mask v)
    | fault => exact .inr ⟨rfl, by omega, hexDigit_fault v (by omega)⟩

/-- The lowest key that is down. -/
theorem lowestKey_eq_some_iff (k : Nat) :
    lowestKey s = some k ↔ ∃ h : k < 16, s.keys[k] = true ∧ ∀ j (hj : j < k), s.keys[j] = false := by
  unfold lowestKey
  rw [List.findIdx?_eq_some_iff_getElem]
  simp

/-- Every key is up. -/
theorem lowestKey_eq_none_iff : lowestKey s = none ↔ ∀ k (h : k < 16), s.keys[k] = false := by
  unfold lowestKey
  rw [List.findIdx?_eq_none_iff]
  simp only [Vector.mem_toList_iff, id_eq, Vector.mem_iff_getElem]
  constructor
  · intro h k hk
    exact h _ ⟨k, hk, rfl⟩
  · rintro h _ ⟨k, hk, rfl⟩
    exact h k hk

@[simp] theorem block_length (x : Nibble) : (s.block x).length = x.toNat + 1 := by
  have := x.isLt
  simp [State.block, blockLength]
  omega

/-- The k-th byte of the block V0 to Vx is Vk. -/
theorem block_getElem (x : Nibble) (k : Nat) (h : k < (s.block x).length) :
    (s.block x)[k] = s.v[k]'(by have := x.isLt; rw [block_length] at h; omega) := by
  simp [State.block]

/-- A register after a block load. -/
theorem loadBlock_getElem (bytes : List Byte) (k : Nat) (v : Vector Byte 16) (r : Nat) (hr : r < 16) :
    (loadBlock k bytes v)[r] = if k ≤ r then bytes.getD (r - k) v[r] else v[r] := by
  induction bytes generalizing k v with
  | nil => simp [loadBlock]
  | cons b bs ih =>
    rw [loadBlock, ih, Vector.getElem_setIfInBounds hr]
    by_cases h : k ≤ r
    · rcases Nat.eq_or_lt_of_le h with rfl | h2
      · simp
      · have e : r - k = (r - (k + 1)) + 1 := by omega
        have h3 : k ≠ r := by omega
        rw [if_pos h, if_pos (show k + 1 ≤ r by omega), if_neg h3, e]
        simp
    · have h2 : ¬ k + 1 ≤ r := by omega
      have h3 : k ≠ r := by omega
      simp [h, h2, h3]

@[simp] theorem zextAddr_toNat (nnn : Addr) : (zextAddr nnn).toNat = nnn.toNat := by
  have := nnn.isLt
  simp only [zextAddr, BitVec.toNat_setWidth]
  omega

@[simp] theorem zextByte_toNat (b : Byte) : (zextByte b).toNat = b.toNat := by
  have := b.isLt
  simp only [zextByte, BitVec.toNat_setWidth]
  omega

/-! ### Tick and the end of a Step (44_timers_keys.md R200) -/

/-- A timer counts down and stays at 0. -/
theorem tickDown_toNat (b : Byte) : (tickDown b).toNat = b.toNat - 1 := by
  unfold tickDown
  split
  · rename_i h
    simp [h]
  · rename_i h
    have h1 : b.toNat ≠ 0 := fun e => h (BitVec.eq_of_toNat_eq e)
    have := b.isLt
    rw [BitVec.toNat_sub]
    simp
    omega

theorem finish_executed (b : Bool) (h : s.reply = some (.executed b)) : finish s = tick s := by
  rw [finish, h]

theorem finish_waiting (h : s.reply = some .waiting) : finish s = s := by
  rw [finish, h]

theorem finish_faulted (f : FaultRecord) (h : s.reply = some (.faulted f)) : finish s = s := by
  rw [finish, h]

@[simp] theorem finish_setReply_executed (b : Bool) :
    finish (s.setReply (.executed b)) = tick s := rfl

@[simp] theorem finish_setReply_waiting : finish (s.setReply .waiting) = s.setReply .waiting := rfl

@[simp] theorem finish_haltWith (k : FaultKind) (a : Word) : finish (haltWith k a s) = haltWith k a s := rfl

@[simp] theorem fetchAddr_advance : fetchAddr (advance s) = s.pc := by
  simp [fetchAddr, advance]

end Sys2Proof.Machine
end

