-- ==== Sys2Proof/Laws/PerInstr.lean ====
section
/-! SUPPORT. Statements made for every instruction, one lemma per constructor. TableForm: the instruction is
well formed and its encoded word matches its row of the opcode table (30_encoding.md R76, R80). -/

namespace Sys2Proof.Laws.TableForm

/-- The word matches the instruction's own row and the operands fit their fields. -/
def Statement (i : Instr) : Prop := i.wellFormed = true ∧ rowMatches (rowOf i) (encode i) = true

/-- A word made of two parts, masked part by part. -/
theorem and_append {a b : Nat} (p p' : BitVec a) (q q' : BitVec b) : (p ++ q) &&& (p' ++ q') = (p &&& p') ++ (q &&& q') := by
  apply BitVec.eq_of_getLsbD_eq
  intro k hk
  by_cases h : k < b <;> simp [BitVec.getLsbD_append, h]

theorem nibble_and_ones (p : Nibble) : p &&& 0xF#4 = p := BitVec.and_allOnes

theorem byte_and_ones (p : Byte) : p &&& 0xFF#8 = p := BitVec.and_allOnes

/-- Format A, masked with 0xF000. -/
theorem mask_encodeA (op : Nibble) (nnn : Addr) : encodeA op nnn &&& 0xF000#16 = op ++ 0x000#12 := by
  rw [encodeA, show (0xF000#16 : Word) = 0xF#4 ++ 0x000#12 from rfl, and_append, nibble_and_ones, BitVec.and_zero]

/-- Format XK, masked with 0xF000. -/
theorem mask_encodeXK (op x : Nibble) (kk : Byte) : encodeXK op x kk &&& 0xF000#16 = op ++ 0x000#12 := by
  rw [encodeXK, show (0xF000#16 : Word) = 0xF#4 ++ 0x000#12 from rfl, and_append, nibble_and_ones, BitVec.and_zero]

/-- Format XF, masked with 0xF0FF. -/
theorem mask_encodeXF (op x : Nibble) (kk : Byte) :
    encodeXK op x kk &&& 0xF0FF#16 = op ++ (0x0#4 ++ kk : BitVec 12) := by
  rw [encodeXK, show (0xF0FF#16 : Word) = 0xF#4 ++ (0x0#4 ++ 0xFF#8 : BitVec 12) from rfl, and_append, and_append,
    nibble_and_ones, byte_and_ones, BitVec.and_zero]

/-- Format XY, masked with 0xF00F. -/
theorem mask_encodeXY (op x y n : Nibble) :
    encodeXY op x y n &&& 0xF00F#16 = op ++ (0x0#4 ++ (0x0#4 ++ n : BitVec 8) : BitVec 12) := by
  rw [encodeXY, show (0xF00F#16 : Word) = 0xF#4 ++ (0x0#4 ++ (0x0#4 ++ 0xF#4 : BitVec 8) : BitVec 12) from rfl,
    and_append, and_append, and_append, nibble_and_ones, nibble_and_ones, BitVec.and_zero, BitVec.and_zero]

/-- Format XYN, masked with 0xF000. -/
theorem mask_encodeXYN (op x y n : Nibble) : encodeXY op x y n &&& 0xF000#16 = op ++ 0x000#12 := by
  rw [encodeXY, show (0xF000#16 : Word) = 0xF#4 ++ 0x000#12 from rfl, and_append, nibble_and_ones, BitVec.and_zero]

theorem cls : Statement .cls := ⟨rfl, rfl⟩
theorem ret : Statement .ret := ⟨rfl, rfl⟩
theorem jp (nnn : Addr) : Statement (.jp nnn) := ⟨wellFormed_all _, beq_iff_eq.mpr (mask_encodeA _ _)⟩
theorem call (nnn : Addr) : Statement (.call nnn) := ⟨wellFormed_all _, beq_iff_eq.mpr (mask_encodeA _ _)⟩
theorem seImm (x : Nibble) (kk : Byte) : Statement (.seImm x kk) := ⟨wellFormed_all _, beq_iff_eq.mpr (mask_encodeXK _ _ _)⟩
theorem sneImm (x : Nibble) (kk : Byte) : Statement (.sneImm x kk) := ⟨wellFormed_all _, beq_iff_eq.mpr (mask_encodeXK _ _ _)⟩
theorem seReg (x y : Nibble) : Statement (.seReg x y) := ⟨wellFormed_all _, beq_iff_eq.mpr (mask_encodeXY _ _ _ _)⟩
theorem ldImm (x : Nibble) (kk : Byte) : Statement (.ldImm x kk) := ⟨wellFormed_all _, beq_iff_eq.mpr (mask_encodeXK _ _ _)⟩
theorem addImm (x : Nibble) (kk : Byte) : Statement (.addImm x kk) := ⟨wellFormed_all _, beq_iff_eq.mpr (mask_encodeXK _ _ _)⟩
theorem ldReg (x y : Nibble) : Statement (.ldReg x y) := ⟨wellFormed_all _, beq_iff_eq.mpr (mask_encodeXY _ _ _ _)⟩
theorem or (x y : Nibble) : Statement (.or x y) := ⟨wellFormed_all _, beq_iff_eq.mpr (mask_encodeXY _ _ _ _)⟩
theorem and (x y : Nibble) : Statement (.and x y) := ⟨wellFormed_all _, beq_iff_eq.mpr (mask_encodeXY _ _ _ _)⟩
theorem xor (x y : Nibble) : Statement (.xor x y) := ⟨wellFormed_all _, beq_iff_eq.mpr (mask_encodeXY _ _ _ _)⟩
theorem addReg (x y : Nibble) : Statement (.addReg x y) := ⟨wellFormed_all _, beq_iff_eq.mpr (mask_encodeXY _ _ _ _)⟩
theorem sub (x y : Nibble) : Statement (.sub x y) := ⟨wellFormed_all _, beq_iff_eq.mpr (mask_encodeXY _ _ _ _)⟩
theorem shr (x y : Nibble) : Statement (.shr x y) := ⟨wellFormed_all _, beq_iff_eq.mpr (mask_encodeXY _ _ _ _)⟩
theorem subn (x y : Nibble) : Statement (.subn x y) := ⟨wellFormed_all _, beq_iff_eq.mpr (mask_encodeXY _ _ _ _)⟩
theorem shl (x y : Nibble) : Statement (.shl x y) := ⟨wellFormed_all _, beq_iff_eq.mpr (mask_encodeXY _ _ _ _)⟩
theorem sneReg (x y : Nibble) : Statement (.sneReg x y) := ⟨wellFormed_all _, beq_iff_eq.mpr (mask_encodeXY _ _ _ _)⟩
theorem ldI (nnn : Addr) : Statement (.ldI nnn) := ⟨wellFormed_all _, beq_iff_eq.mpr (mask_encodeA _ _)⟩
theorem jpV0 (nnn : Addr) : Statement (.jpV0 nnn) := ⟨wellFormed_all _, beq_iff_eq.mpr (mask_encodeA _ _)⟩
theorem rnd (x : Nibble) (kk : Byte) : Statement (.rnd x kk) := ⟨wellFormed_all _, beq_iff_eq.mpr (mask_encodeXK _ _ _)⟩
theorem drw (x y n : Nibble) : Statement (.drw x y n) := ⟨wellFormed_all _, beq_iff_eq.mpr (mask_encodeXYN _ _ _ _)⟩
theorem skp (x : Nibble) : Statement (.skp x) := ⟨wellFormed_all _, beq_iff_eq.mpr (mask_encodeXF _ _ _)⟩
theorem sknp (x : Nibble) : Statement (.sknp x) := ⟨wellFormed_all _, beq_iff_eq.mpr (mask_encodeXF _ _ _)⟩
theorem ldVxDt (x : Nibble) : Statement (.ldVxDt x) := ⟨wellFormed_all _, beq_iff_eq.mpr (mask_encodeXF _ _ _)⟩
theorem ldVxK (x : Nibble) : Statement (.ldVxK x) := ⟨wellFormed_all _, beq_iff_eq.mpr (mask_encodeXF _ _ _)⟩
theorem ldDtVx (x : Nibble) : Statement (.ldDtVx x) := ⟨wellFormed_all _, beq_iff_eq.mpr (mask_encodeXF _ _ _)⟩
theorem ldStVx (x : Nibble) : Statement (.ldStVx x) := ⟨wellFormed_all _, beq_iff_eq.mpr (mask_encodeXF _ _ _)⟩
theorem addI (x : Nibble) : Statement (.addI x) := ⟨wellFormed_all _, beq_iff_eq.mpr (mask_encodeXF _ _ _)⟩
theorem ldF (x : Nibble) : Statement (.ldF x) := ⟨wellFormed_all _, beq_iff_eq.mpr (mask_encodeXF _ _ _)⟩
theorem ldB (x : Nibble) : Statement (.ldB x) := ⟨wellFormed_all _, beq_iff_eq.mpr (mask_encodeXF _ _ _)⟩
theorem ldMemVx (x : Nibble) : Statement (.ldMemVx x) := ⟨wellFormed_all _, beq_iff_eq.mpr (mask_encodeXF _ _ _)⟩
theorem ldVxMem (x : Nibble) : Statement (.ldVxMem x) := ⟨wellFormed_all _, beq_iff_eq.mpr (mask_encodeXF _ _ _)⟩

end Sys2Proof.Laws.TableForm
end

