-- ==== Sys2Proof/Laws/Step.lean ====
section
/-! SUPPORT. Everything an instruction and a Step can do, said once (30_encoding.md R73, R78; 60_exceptions.md
R221 to R224). -/

namespace Sys2Proof.Machine

/-- How Execute ends (30_encoding.md R78): it completes a state in which halt, keys and parameters are as they
were, it waits, or it raises a fault. -/
inductive ExecEnds (s t : State) : Prop where
  | completed (u : State) (h : t = u.setReply (.executed false)) (halt : u.halt = s.halt)
      (keys : u.keys = s.keys) (params : u.params = s.params)
  | waited (h : t = (s.setPc (fetchAddr s)).setReply .waiting)
  | faulted (k : FaultKind) (h : t = haltWith k (fetchAddr s) s)

theorem ends_complete {s u t : State} (h : complete u = .next t) (halt : u.halt = s.halt)
    (keys : u.keys = s.keys) (params : u.params = s.params) : ExecEnds s t := by
  cases h
  exact .completed u rfl halt keys params

theorem ends_raise {s t : State} {k : FaultKind} (h : raise k s = .next t) : ExecEnds s t := by
  cases h
  exact .faulted k rfl

theorem ends_skipIf {s t : State} {c : Bool} (h : skipIf c s = .next t) : ExecEnds s t := by
  cases c <;> exact ends_complete h rfl rfl rfl

/-- Everything an instruction can do when it answers a next state. -/
theorem exec_ends {i : Instr} {s t : State} (h : exec i s = .next t) : ExecEnds s t := by
  cases i with
  | cls => exact ends_complete h rfl rfl rfl
  | ret =>
    simp only [exec, execRet] at h
    rcases pop_cases s with ⟨_, e⟩ | ⟨n, hn, _, e⟩ <;> rw [e] at h
    · exact ends_raise h
    · exact ends_complete h rfl rfl rfl
  | jp nnn => exact ends_complete h rfl rfl rfl
  | call nnn =>
    simp only [exec, execCall] at h
    rcases push_cases s s.pc with ⟨hn, e⟩ | ⟨_, e⟩ <;> rw [e] at h
    · exact ends_complete h rfl rfl rfl
    · exact ends_raise h
  | seImm x kk => exact ends_skipIf h
  | sneImm x kk => exact ends_skipIf h
  | seReg x y => exact ends_skipIf h
  | ldImm x kk => exact ends_complete h rfl rfl rfl
  | addImm x kk => exact ends_complete h rfl rfl rfl
  | ldReg x y => exact ends_complete h rfl rfl rfl
  | or x y => exact ends_complete h rfl rfl rfl
  | and x y => exact ends_complete h rfl rfl rfl
  | xor x y => exact ends_complete h rfl rfl rfl
  | addReg x y => exact ends_complete h rfl rfl rfl
  | sub x y => exact ends_complete h rfl rfl rfl
  | shr x y => exact ends_complete h rfl rfl rfl
  | subn x y => exact ends_complete h rfl rfl rfl
  | shl x y => exact ends_complete h rfl rfl rfl
  | sneReg x y => exact ends_skipIf h
  | ldI nnn => exact ends_complete h rfl rfl rfl
  | jpV0 nnn => exact ends_complete h rfl rfl rfl
  | rnd x kk => exact ends_complete h rfl rfl rfl
  | drw x y n =>
    simp only [exec, execDrw] at h
    split at h
    · exact ends_complete h rfl rfl rfl
    · split at h
      · exact ends_raise h
      · exact ends_complete h rfl rfl rfl
  | skp x =>
    simp only [exec, execSkp] at h
    split at h
    · exact ends_raise h
    · exact ends_skipIf h
  | sknp x =>
    simp only [exec, execSknp] at h
    split at h
    · exact ends_raise h
    · exact ends_skipIf h
  | ldVxDt x => exact ends_complete h rfl rfl rfl
  | ldVxK x =>
    simp only [exec, execLdVxK] at h
    split at h
    · exact ends_complete h rfl rfl rfl
    · cases h
      exact .waited rfl
  | ldDtVx x => exact ends_complete h rfl rfl rfl
  | ldStVx x => exact ends_complete h rfl rfl rfl
  | addI x => exact ends_complete h rfl rfl rfl
  | ldF x =>
    simp only [exec, execLdF] at h
    split at h
    · exact ends_raise h
    · exact ends_complete h rfl rfl rfl
  | ldB x =>
    simp only [exec, execLdB] at h
    split at h
    · exact ends_raise h
    · rename_i u e
      obtain ⟨rfl, _⟩ := memWrite_ok e
      exact ends_complete h rfl rfl rfl
  | ldMemVx x =>
    simp only [exec, execLdMemVx] at h
    split at h
    · exact ends_raise h
    · rename_i u e
      obtain ⟨rfl, _⟩ := memWrite_ok e
      exact ends_complete h rfl rfl rfl
  | ldVxMem x =>
    simp only [exec, execLdVxMem] at h
    split at h
    · exact ends_raise h
    · exact ends_complete h rfl rfl rfl

/-- Everything a Step can do when it answers a next state: the core was running, and the fetch faulted, or
the word was Unknown, or the decoded instruction was executed and the Step finished. -/
theorem step_cases {s t : State} (h : step s = .next t) :
    s.halt = none ∧
      ((∃ k, fetch s = .error k ∧ t = haltWith k s.pc s) ∨
       (∃ w e, fetch s = .ok w ∧ decode w = .error e ∧ t = haltWith (.unknownOpcode w) s.pc (advance s)) ∨
       (∃ w i u, fetch s = .ok w ∧ decode w = .ok i ∧ exec i (advance s) = .next u ∧ t = finish u)) := by
  unfold step at h
  split at h
  · cases h
  · rename_i hh
    refine ⟨hh, ?_⟩
    split at h
    · rename_i k hk
      cases h
      exact .inl ⟨k, hk, rfl⟩
    · rename_i w hw
      split at h
      · rename_i e he
        cases h
        exact .inr (.inl ⟨w, e, hw, he, by rw [fetchAddr_advance]⟩)
      · rename_i i hi
        split at h
        · rename_i u hu
          cases h
          exact .inr (.inr ⟨w, i, u, hw, hi, hu, rfl⟩)
        · cases h
        · cases h

end Sys2Proof.Machine
end

