-- ==== Sys2Proof/Tests/Slice0.lean ====
section
/-! SUPPORT. Tests. Expected values come from the spec's worked examples and vectors (95_test_vectors.md, whose
row is named in each docstring) or from its encodings; witnesses show that the hypotheses of the statements can
be met. -/

namespace Sys2Proof.Tests

open Sys2Proof.Machine

/-! ### Helpers -/

/-- What a function of the next state gives. -/
def sees {α : Type} (f : State → α) : Result → Option α
  | .next t => some (f t)
  | _ => none

/-- One Step on a word placed at PC. -/
def ran (w : Word) (s : State) : Result := step (placeWord s w)

/-- Registers given values. -/
def withV (l : List (Nibble × Byte)) (s : State) : State := l.foldl (fun t p => t.setV p.1 p.2) s

/-- One key down. -/
def withKey (k : Fin 16) (s : State) : State := { s with keys := s.keys.set k true }

/-- Every key up but two. -/
def withKeys (k j : Fin 16) (s : State) : State := withKey k (withKey j s)

/-- The stack pointer and the entry below it. -/
def withStack (sp : Fin 17) (k : Fin 16) (w : Word) (s : State) : State :=
  s.setStack (s.stack.set k w) sp

/-- I and bytes from I on. -/
def withI (i : Word) (bytes : List Byte) (s : State) : State :=
  (s.setI i).setMem (Memory.writeBytes s.params.font s.mem i.toNat bytes)

/-- One pixel on. -/
def withPixel (x : Fin 64) (y : Fin 32) (s : State) : State := s.setGfx (putPixel s.gfx x y true)

/-- The mask policy. -/
def masked (s : State) : State := { s with params := { s.params with hexDigitPolicy := .mask } }

/-- The literal shl_flag_bit. -/
def bitZero (s : State) : State := { s with params := { s.params with shlFlagBit := .bit0 } }

/-- Font protection. -/
def guarded (s : State) : State := { s with params := { s.params with fontProtect := true } }

/-- Some cells. -/
def cells (l : List (Fin 64 × Fin 32)) (t : State) : List Bool := l.map fun c => pixel t.gfx c.1 c.2

/-- Three bytes of memory. -/
def three (a : Nat) (t : State) : Byte × Byte × Byte := (t.byte a, t.byte (a + 1), t.byte (a + 2))

/-! ### WellFormed -/

/-- Each field takes its largest value. -/
theorem test_wellformed_largest :
    ({ nnn := 4095 } : OperandValues).wellFormed .a = true ∧
    ({ x := 15, kk := 255 } : OperandValues).wellFormed .xk = true ∧
    ({ x := 15, y := 15 } : OperandValues).wellFormed .xy = true ∧
    ({ x := 15, y := 15, n := 15 } : OperandValues).wellFormed .xyn = true ∧
    ({ x := 15 } : OperandValues).wellFormed .xf = true := by decide

/-- Each check refuses a value one too large. -/
theorem test_wellformed_refuses :
    ({ nnn := 4096 } : OperandValues).wellFormed .a = false ∧
    ({ x := 16 } : OperandValues).wellFormed .xk = false ∧
    ({ kk := 256 } : OperandValues).wellFormed .xk = false ∧
    ({ x := 16 } : OperandValues).wellFormed .xy = false ∧
    ({ y := 16 } : OperandValues).wellFormed .xy = false ∧
    ({ x := 16 } : OperandValues).wellFormed .xyn = false ∧
    ({ y := 16 } : OperandValues).wellFormed .xyn = false ∧
    ({ n := 16 } : OperandValues).wellFormed .xyn = false ∧
    ({ x := 16 } : OperandValues).wellFormed .xf = false := by decide

/-! ### Decode: one word per constructor, written from its pattern in 30_encoding.md R80 -/

theorem test_decode_zero_to_five :
    decode 0x00E0#16 = .ok .cls ∧ decode 0x00EE#16 = .ok .ret ∧ decode 0x1234#16 = .ok (.jp 0x234#12) ∧
    decode 0x2FED#16 = .ok (.call 0xFED#12) ∧ decode 0x3A42#16 = .ok (.seImm 0xA#4 0x42#8) ∧
    decode 0x4B17#16 = .ok (.sneImm 0xB#4 0x17#8) ∧ decode 0x5FE0#16 = .ok (.seReg 0xF#4 0xE#4) := by decide

theorem test_decode_six_and_seven :
    decode 0x6A7B#16 = .ok (.ldImm 0xA#4 0x7B#8) ∧ decode 0x7C81#16 = .ok (.addImm 0xC#4 0x81#8) := by decide

theorem test_decode_eight :
    decode 0x8120#16 = .ok (.ldReg 0x1#4 0x2#4) ∧ decode 0x8341#16 = .ok (.or 0x3#4 0x4#4) ∧
    decode 0x8562#16 = .ok (.and 0x5#4 0x6#4) ∧ decode 0x8783#16 = .ok (.xor 0x7#4 0x8#4) ∧
    decode 0x89A4#16 = .ok (.addReg 0x9#4 0xA#4) ∧ decode 0x8BC5#16 = .ok (.sub 0xB#4 0xC#4) ∧
    decode 0x8DE6#16 = .ok (.shr 0xD#4 0xE#4) ∧ decode 0x8F07#16 = .ok (.subn 0xF#4 0x0#4) ∧
    decode 0x821E#16 = .ok (.shl 0x2#4 0x1#4) := by decide

theorem test_decode_nine_to_d :
    decode 0x9DC0#16 = .ok (.sneReg 0xD#4 0xC#4) ∧ decode 0xAFED#16 = .ok (.ldI 0xFED#12) ∧
    decode 0xB5FE#16 = .ok (.jpV0 0x5FE#12) ∧ decode 0xC30F#16 = .ok (.rnd 0x3#4 0x0F#8) ∧
    decode 0xD12A#16 = .ok (.drw 0x1#4 0x2#4 0xA#4) := by decide

theorem test_decode_e_and_f :
    decode 0xE19E#16 = .ok (.skp 0x1#4) ∧ decode 0xEFA1#16 = .ok (.sknp 0xF#4) ∧
    decode 0xF207#16 = .ok (.ldVxDt 0x2#4) ∧ decode 0xF30A#16 = .ok (.ldVxK 0x3#4) ∧
    decode 0xF415#16 = .ok (.ldDtVx 0x4#4) ∧ decode 0xF518#16 = .ok (.ldStVx 0x5#4) ∧
    decode 0xF61E#16 = .ok (.addI 0x6#4) ∧ decode 0xF729#16 = .ok (.ldF 0x7#4) ∧
    decode 0xF833#16 = .ok (.ldB 0x8#4) ∧ decode 0xF955#16 = .ok (.ldMemVx 0x9#4) ∧
    decode 0xFA65#16 = .ok (.ldVxMem 0xA#4) := by decide

/-- Unknown words: S10, S10b, E6 to E15. -/
theorem test_decode_unknown :
    decode 0x0000#16 = .error (.unknownOpcode 0x0000#16) ∧ decode 0x0123#16 = .error (.unknownOpcode 0x0123#16) ∧
    decode 0x00E1#16 = .error (.unknownOpcode 0x00E1#16) ∧ decode 0x00FF#16 = .error (.unknownOpcode 0x00FF#16) ∧
    decode 0x5121#16 = .error (.unknownOpcode 0x5121#16) ∧ decode 0x8128#16 = .error (.unknownOpcode 0x8128#16) ∧
    decode 0x812F#16 = .error (.unknownOpcode 0x812F#16) ∧ decode 0x9121#16 = .error (.unknownOpcode 0x9121#16) ∧
    decode 0xE002#16 = .error (.unknownOpcode 0xE002#16) ∧ decode 0xE19F#16 = .error (.unknownOpcode 0xE19F#16) ∧
    decode 0xF0FF#16 = .error (.unknownOpcode 0xF0FF#16) ∧ decode 0xF130#16 = .error (.unknownOpcode 0xF130#16) := by
  decide

/-- The table's numbering: a one-word instruction's bits are its word, and the first byte in memory is the high
one (R70). -/
theorem test_decode_table_word :
    decodeTableWord 16 0x8014 = some (.addReg 0x0#4 0x1#4) ∧ decodeTableWord 16 0xFA33 = some (.ldB 0xA#4) ∧
    decodeTableWord 16 0x0000 = none := by decide

/-- The assembler's default y = 0 for SHR and SHL, and a refused operand (30_encoding.md R84). -/
theorem test_assemble :
    assemble (rowOf (.shl 2 0)) { x := 2 } = some 0x820E#16 ∧ assemble (rowOf (.jp 0)) { nnn := 4096 } = none := by
  decide

/-- The spellings of P1, P3 and P5 in 95_test_vectors.md. -/
theorem test_text :
    (Instr.ldImm 0xA 0x7B).text = "LD VA, 7B" ∧ (Instr.ldI 0x300).text = "LD I, 300" ∧
    (Instr.ldVxMem 2).text = "LD V2, [I]" ∧ (Instr.drw 1 2 5).text = "DRW V1, V2, 5" ∧
    (Instr.shr 5 0).text = "SHR V5" := by decide

/-! ### Step, fetch and faults -/

/-- E1, E4: the last word of memory and an odd address. -/
theorem test_step_fetch :
    sees (fun t => (t.getV 0, t.pc)) (ran 0x6001 (State.reset.setPc 0x0FFE)) = some (0x01, 0x1000) ∧
    sees (fun t => (t.getV 0xA, t.pc)) (ran 0x6A07 (State.reset.setPc 0x0201)) = some (0x07, 0x0203) := by decide

/-- E2, E3: the fetch faults and PC keeps the fetch address. -/
theorem test_step_fetch_fault :
    sees (fun t => (t.halt, t.pc)) (step (State.reset.setPc 0x0FFF)) =
      some (some ⟨.outOfBoundsAddress 0x1000, 0x0FFF⟩, 0x0FFF) ∧
    sees (fun t => (t.halt, t.pc)) (step (State.reset.setPc 0x1000)) =
      some (some ⟨.outOfBoundsAddress 0x1000, 0x1000⟩, 0x1000) := by decide

/-- S10b, E5: an Unknown word leaves PC at a + 2 and does not tick. -/
theorem test_step_unknown :
    sees (fun t => (t.halt, t.pc, t.dt, t.st, t.reply)) (ran 0xE002 ((State.reset.setDt 5).setSt 5)) =
      some (some ⟨.unknownOpcode 0xE002, 0x0200⟩, 0x0202, 5, 5,
        some (.faulted ⟨.unknownOpcode 0xE002, 0x0200⟩)) := by decide

/-- E16: a halted core answers the same fault again. -/
theorem test_step_halted :
    step (State.reset.setHalt (some ⟨.unknownOpcode 0, 0x0200⟩)) = .fault (.halted ⟨.unknownOpcode 0, 0x0200⟩) :=
  rfl

/-- S7, S8: exactly one beep, when ST goes from 1 to 0. -/
theorem test_tick_beeps_once :
    sees (fun t => (t.st, t.reply)) (ran 0x6000 (State.reset.setSt 1)) = some (0, some (.executed true)) ∧
    sees (fun t => (t.st, t.reply)) (ran 0x6000 (State.reset.setSt 2)) = some (1, some (.executed false)) := by
  decide

/-- T8: both timers count down. -/
theorem test_tick_counts_both :
    sees (fun t => (t.dt, t.st)) (ran 0x6000 ((State.reset.setDt 1).setSt 3)) = some (0, 2) := by decide

/-- The host's two questions: the placed word is what the next Step runs. -/
theorem test_with_fetch_word :
    sees (fun t => t.i) (step (State.reset.withFetchWord 16 0xA300)) = some 0x0300 := by decide

/-! ### Reset and ports -/

/-- Z1. -/
theorem test_reset_memory :
    State.reset.bytes 0x000 5 = [0xF0, 0x90, 0x90, 0x90, 0xF0] ∧
    State.reset.bytes 0x04B 6 = [0xF0, 0x80, 0xF0, 0x80, 0x80, 0x00] ∧ State.reset.byte 0x0FFF = 0 ∧
    State.reset.pc = 0x0200 := by decide

/-- Z5: with nothing loaded the first Step faults on the word 0000. -/
theorem test_reset_first_step :
    sees (fun t => t.halt) (step State.reset) = some (some ⟨.unknownOpcode 0, 0x0200⟩) := by decide

/-- E17: the reset port ends a halt and keeps the draw count and the parameters. -/
theorem test_port_reset :
    (portReset ((masked State.reset).setHalt (some ⟨.stackOverflow, 0⟩))).halt = none ∧
    (portReset (masked State.reset)).params.hexDigitPolicy = .mask ∧ (portReset (State.reset.setDraws 3)).draws = 3 := by
  decide

/-- Z4, a short image, and a second, shorter load (log 11). -/
theorem test_port_load :
    sees (fun t => sees (fun u => u.bytes 0x200 3) (portLoad [0x56] t)) (portLoad [0x12, 0x34] .reset) =
      some (some [0x56, 0x34, 0x00]) ∧
    sees (fun t => t.bytes 0x200 3) (portLoad [0x12, 0x34] State.reset) = some [0x12, 0x34, 0x00] ∧
    sees (fun t => t.pc) (portLoad [0x12] (State.reset.setReply .waiting)) = none := by decide

/-- The key port and the display port. -/
theorem test_ports_keys_and_display :
    (portSetKeys (State.reset.keys.set 5 true) State.reset).key 5 = true ∧
    (portGetPixel (withPixel 63 31 .reset) 63 31).toOption = some true ∧
    (portGetPixel State.reset 64 0).toOption = none := by decide

/-! ### Memory primitives -/

/-- S9b, M3, M4, M5, M6. -/
theorem test_word_access :
    ((writeWord State.reset 0x0FFE 0x1234).toOption.map fun t => (t.byte 0x0FFE, t.byte 0x0FFF)) = some (0x12, 0x34) ∧
    readWord State.reset 0x0FFF = .error (.outOfBoundsAddress 0x1000) ∧
    readWord State.reset 0xFFFF = .error (.outOfBoundsAddress 0xFFFF) ∧
    (writeWord State.reset 0x0FFF 0x1234).toOption = none ∧
    memRead State.reset 0x0FFE 4 = .error (.outOfBoundsAddress 0x1000) := by decide

/-- Writing back the reset contents takes the cell off the list. -/
theorem test_memory_canonical :
    (Memory.write defaultFont (Memory.write defaultFont [] 0x300 7) 0x300 0) = [] ∧
    Memory.write defaultFont [] 0x000 0xF0 = [] ∧ Memory.write defaultFont [(5, 1)] 2 9 = [(2, 9), (5, 1)] := by decide

/-! ### Control transfer -/

/-- C1, C3. -/
theorem test_jp :
    sees (fun t => t.pc) (ran 0x1234 .reset) = some 0x0234 ∧ sees (fun t => t.pc) (ran 0x1FFF .reset) = some 0x0FFF := by
  decide

/-- C5, C7: the sixteenth entry, and a CALL in the last word. -/
theorem test_call :
    sees (fun t => (t.stack[15], t.sp, t.pc)) (ran 0x2300 (withStack 15 0 0 .reset)) = some (0x0202, 16, 0x0300) ∧
    sees (fun t => (t.stack[0], t.sp, t.pc)) (ran 0x2300 (State.reset.setPc 0x0FFE)) = some (0x1000, 1, 0x0300) := by
  decide

/-- S15, C6. -/
theorem test_call_overflow :
    sees (fun t => (t.halt, t.pc, t.sp, t.stack[15])) (ran 0x2300 (withStack 16 15 7 .reset)) =
      some (some ⟨.stackOverflow, 0x0200⟩, 0x0202, 16, 7) := by decide

/-- C8: the entry is not cleared. -/
theorem test_ret :
    sees (fun t => (t.pc, t.sp, t.stack[0])) (ran 0x00EE ((withStack 1 0 0x0206 .reset).setPc 0x0212)) =
      some (0x0206, 0, 0x0206) := by decide

/-- S15b, C9. -/
theorem test_ret_underflow :
    sees (fun t => (t.halt, t.pc, t.sp)) (ran 0x00EE .reset) = some (some ⟨.stackUnderflow, 0x0200⟩, 0x0202, 0) := by
  decide

/-- S3, S3b, C12. -/
theorem test_se_imm :
    sees (fun t => t.pc) (ran 0x3342 ((withV [(3, 0x42)] .reset).setPc 0x0300)) = some 0x0304 ∧
    sees (fun t => t.pc) (ran 0x3342 ((withV [(3, 0x41)] .reset).setPc 0x0300)) = some 0x0302 ∧
    sees (fun t => t.pc) (ran 0x3000 (State.reset.setPc 0x0FFE)) = some 0x1002 := by decide

/-- C13, C14. -/
theorem test_sne_imm :
    sees (fun t => t.pc) (ran 0x4342 ((withV [(3, 0x41)] .reset).setPc 0x0300)) = some 0x0304 ∧
    sees (fun t => t.pc) (ran 0x4342 ((withV [(3, 0x42)] .reset).setPc 0x0300)) = some 0x0302 := by decide

/-- C15, C16. -/
theorem test_se_reg :
    sees (fun t => t.pc) (ran 0x5120 (withV [(1, 7), (2, 7)] .reset)) = some 0x0204 ∧
    sees (fun t => t.pc) (ran 0x5120 (withV [(1, 7), (2, 8)] .reset)) = some 0x0202 := by decide

/-- C17, C18. -/
theorem test_sne_reg :
    sees (fun t => t.pc) (ran 0x9120 (withV [(1, 7), (2, 8)] .reset)) = some 0x0204 ∧
    sees (fun t => t.pc) (ran 0x9110 (withV [(1, 7)] .reset)) = some 0x0202 := by decide

/-- C22, C23: no mask, and V0 and not Vx. -/
theorem test_jp_v0 :
    sees (fun t => t.pc) (ran 0xBFFF (withV [(0, 0xFF)] .reset)) = some 0x10FE ∧
    sees (fun t => t.pc) (ran 0xB5FE (withV [(0, 1), (5, 0x20)] .reset)) = some 0x05FF := by decide

/-! ### Loads, arithmetic, logic, shifts, random -/

/-- A1. -/
theorem test_ld_imm :
    sees (fun t => (t.getV 0xA, t.getV vf, t.pc)) (ran 0x6A7B (withV [(vf, 0x55)] .reset)) = some (0x7B, 0x55, 0x0202) := by
  decide

/-- A3, A4. -/
theorem test_add_imm :
    sees (fun t => (t.getV 0, t.getV vf)) (ran 0x7002 (withV [(0, 0xFF), (vf, 0x55)] .reset)) = some (0x01, 0x55) ∧
    sees (fun t => t.getV vf) (ran 0x7F01 (withV [(vf, 0xFF)] .reset)) = some 0x00 := by decide

/-- A5. -/
theorem test_ld_reg :
    sees (fun t => (t.getV 1, t.getV 2)) (ran 0x8120 (withV [(2, 0x99)] .reset)) = some (0x99, 0x99) := by decide

/-- A6. -/
theorem test_or :
    sees (fun t => (t.getV 1, t.getV vf)) (ran 0x8121 (withV [(1, 0x0F), (2, 0xF0), (vf, 0x55)] .reset)) =
      some (0xFF, 0x55) := by decide

/-- A7. -/
theorem test_and :
    sees (fun t => (t.getV 1, t.getV vf)) (ran 0x8122 (withV [(1, 0x3C), (2, 0x0F), (vf, 0x55)] .reset)) =
      some (0x0C, 0x55) := by decide

/-- A8, A9. -/
theorem test_xor :
    sees (fun t => (t.getV 1, t.getV vf)) (ran 0x8123 (withV [(1, 0x3C), (2, 0x0F), (vf, 0x55)] .reset)) =
      some (0x33, 0x55) ∧
    sees (fun t => t.getV 1) (ran 0x8113 (withV [(1, 0x3C)] .reset)) = some 0x00 := by decide

/-- S1, A11: the carry, and a sum of exactly 255. -/
theorem test_add_reg :
    sees (fun t => (t.getV 0, t.getV vf)) (ran 0x8014 (withV [(0, 0xC8), (1, 0x64)] .reset)) = some (0x2C, 1) ∧
    sees (fun t => (t.getV 0, t.getV vf)) (ran 0x8014 (withV [(0, 0xFE), (1, 0x01)] .reset)) = some (0xFF, 0) := by
  decide

/-- A13, A14: VF as destination and as source. -/
theorem test_add_reg_vf :
    sees (fun t => t.getV vf) (ran 0x8F14 (withV [(vf, 0x10), (1, 0x20)] .reset)) = some 0x00 ∧
    sees (fun t => (t.getV 0, t.getV vf)) (ran 0x80F4 (withV [(0, 0xF0), (vf, 0x20)] .reset)) = some (0x10, 1) := by
  decide

/-- S2, S2b, A16: greater, less, equal. -/
theorem test_sub :
    sees (fun t => (t.getV 0, t.getV vf)) (ran 0x8015 (withV [(0, 5), (1, 3)] .reset)) = some (0x02, 1) ∧
    sees (fun t => (t.getV 0, t.getV vf)) (ran 0x8015 (withV [(0, 3), (1, 5)] .reset)) = some (0xFE, 0) ∧
    sees (fun t => (t.getV 0, t.getV vf)) (ran 0x8015 (withV [(0, 0x42), (1, 0x42)] .reset)) = some (0x00, 0) := by
  decide

/-- A19, A20, A21. -/
theorem test_subn :
    sees (fun t => (t.getV 0, t.getV vf)) (ran 0x8017 (withV [(0, 3), (1, 5)] .reset)) = some (0x02, 1) ∧
    sees (fun t => (t.getV 0, t.getV vf)) (ran 0x8017 (withV [(0, 5), (1, 3)] .reset)) = some (0xFE, 0) ∧
    sees (fun t => (t.getV 0, t.getV vf)) (ran 0x8017 (withV [(0, 7), (1, 7)] .reset)) = some (0x00, 0) := by decide

/-- S12, A24, A26: y is ignored, and the flag survives in VF. -/
theorem test_shr :
    sees (fun t => (t.getV 0, t.getV vf)) (ran 0x8006 (withV [(0, 0x81)] .reset)) = some (0x40, 1) ∧
    sees (fun t => (t.getV 0, t.getV vf, t.getV 7)) (ran 0x8076 (withV [(0, 2), (7, 0xFF)] .reset)) =
      some (0x01, 0, 0xFF) ∧
    sees (fun t => t.getV vf) (ran 0x8FF6 (withV [(vf, 5)] .reset)) = some 0x01 := by decide

/-- S11, S11b: the standard bit. -/
theorem test_shl :
    sees (fun t => (t.getV 2, t.getV vf)) (ran 0x820E (withV [(2, 0x80)] .reset)) = some (0x00, 1) ∧
    sees (fun t => (t.getV 2, t.getV vf)) (ran 0x820E (withV [(2, 0x01)] .reset)) = some (0x02, 0) := by decide

/-- S11, S11b, A30: the literal bit. -/
theorem test_shl_literal :
    sees (fun t => (t.getV 2, t.getV vf)) (ran 0x820E (withV [(2, 0x80)] (bitZero .reset))) = some (0x00, 0) ∧
    sees (fun t => (t.getV 2, t.getV vf)) (ran 0x820E (withV [(2, 0x01)] (bitZero .reset))) = some (0x02, 1) ∧
    sees (fun t => t.getV vf) (ran 0x8FFE (withV [(vf, 0x80)] (bitZero .reset))) = some 0x00 := by decide

/-- A31, S6: the draw, whatever it is, masked, and one draw consumed. -/
theorem test_rnd :
    sees (fun t => (t.getV 3, t.draws)) (ran 0xC30F (State.reset.setDraws 4)) = some (Config.rnd 4 &&& 0x0F, 5) := rfl

/-! ### Index register, font, BCD, blocks -/

/-- X1, X2. -/
theorem test_ld_i :
    sees (fun t => t.i) (ran 0xA300 .reset) = some 0x0300 ∧ sees (fun t => t.i) (ran 0xAFFF .reset) = some 0x0FFF := by
  decide

/-- X4, X5. -/
theorem test_add_i :
    sees (fun t => (t.i, t.getV vf)) (ran 0xF51E ((withV [(5, 1), (vf, 0x55)] .reset).setI 0x0FFF)) =
      some (0x1000, 0x55) ∧
    sees (fun t => t.i) (ran 0xF51E ((withV [(5, 1)] .reset).setI 0xFFFF)) = some 0x0000 := by decide

/-- X6, X7, X10. -/
theorem test_ld_f :
    sees (fun t => t.i) (ran 0xF029 (withV [(0, 0x0A)] .reset)) = some 0x0032 ∧
    sees (fun t => t.i) (ran 0xF029 (withV [(0, 0x0F)] .reset)) = some 0x004B ∧
    sees (fun t => t.i) (ran 0xF029 (withV [(0, 0x1A)] (masked .reset))) = some 0x0032 := by decide

/-- X9. -/
theorem test_ld_f_fault :
    sees (fun t => (t.halt, t.i, t.pc)) (ran 0xF029 ((withV [(0, 0x1A)] .reset).setI 0x0300)) =
      some (some ⟨.hexDigitOutOfRange 0x1A, 0x0200⟩, 0x0300, 0x0202) := by decide

/-- X11, X12, X17. -/
theorem test_ld_b :
    sees (three 0x300) (ran 0xFA33 (withV [(0xA, 0x7B)] (withI 0x300 [] .reset))) = some (1, 2, 3) ∧
    sees (three 0x300) (ran 0xF033 (withV [(0, 0xFF)] (withI 0x300 [] .reset))) = some (2, 5, 5) ∧
    sees (three 0) (ran 0xF033 (withV [(0, 0x42)] .reset)) = some (0, 6, 6) := by decide

/-- X15, X16, X18, X19: nothing is written. -/
theorem test_ld_b_fault :
    sees (fun t => (t.halt, t.byte 0xFFE)) (ran 0xF033 (withV [(0, 0x0A)] (withI 0xFFE [9] .reset))) =
      some (some ⟨.outOfBoundsAddress 0x1000, 0x0200⟩, 9) ∧
    sees (fun t => t.halt) (ran 0xF033 (State.reset.setI 0xFFFF)) =
      some (some ⟨.outOfBoundsAddress 0xFFFF, 0x0200⟩) ∧
    sees (fun t => (t.halt, t.byte 0)) (ran 0xF033 (guarded .reset)) =
      some (some ⟨.protectedWrite 0, 0x0200⟩, 0xF0) ∧
    sees (fun t => t.halt) (ran 0xF033 ((guarded .reset).setI 0x4F)) =
      some (some ⟨.protectedWrite 0x4F, 0x0200⟩) := by decide

/-- X21, X22. -/
theorem test_ld_mem_vx :
    sees (fun t => (three 0x400 t, t.i)) (ran 0xF155 (withV [(0, 0x11), (1, 0x22), (2, 0x33)] (State.reset.setI 0x400))) =
      some ((0x11, 0x22, 0x00), 0x400) ∧
    sees (fun t => (t.byte 0xFF0, t.byte 0xFFF)) (ran 0xFF55 (withV [(0, 5), (vf, 0x0F)] (State.reset.setI 0xFF0))) =
      some (5, 0x0F) := by decide

/-- X23. -/
theorem test_ld_mem_vx_fault :
    sees (fun t => (t.halt, t.byte 0xFF1)) (ran 0xFF55 (withV [(0, 5)] (State.reset.setI 0xFF1))) =
      some (some ⟨.outOfBoundsAddress 0x1000, 0x0200⟩, 0) := by decide

/-- X24, X27. -/
theorem test_ld_vx_mem :
    sees (fun t => (t.getV 0, t.getV 1, t.getV 2, t.getV 3, t.i)) (ran 0xF265 (withI 0x300 [1, 2, 3, 4] .reset)) =
      some (1, 2, 3, 0, 0x300) ∧
    sees (fun t => (t.getV 0, t.getV 1, t.getV 4, t.getV 5)) (ran 0xF465 .reset) = some (0xF0, 0x90, 0xF0, 0) := by
  decide

/-- X26. -/
theorem test_ld_vx_mem_fault :
    sees (fun t => (t.halt, t.getV 0, t.getV 1)) (ran 0xF165 (withV [(0, 0x77), (1, 0x88)] (State.reset.setI 0xFFF))) =
      some (some ⟨.outOfBoundsAddress 0x1000, 0x0200⟩, 0x77, 0x88) := by decide

/-! ### Display -/

/-- G1, on two lit cells. -/
theorem test_cls :
    sees (fun t => (cells [(0, 0), (63, 31)] t, t.getV vf))
      (ran 0x00E0 (withPixel 0 0 (withPixel 63 31 (withV [(vf, 0x55)] .reset)))) = some ([false, false], 0x55) := by
  decide

/-- G4: both edges wrap, bit 7 is leftmost, and only 1 bits light cells. -/
theorem test_drw_wraps :
    sees (fun t => (cells [(62, 31), (0, 31), (5, 31), (6, 31), (62, 0), (63, 0), (4, 0), (5, 0), (6, 0)] t, t.getV vf))
      (ran 0xD012 (withV [(0, 0x3E), (1, 0x1F)] (withI 0x300 [0xFF, 0x81] .reset))) =
      some ([true, true, true, false, true, false, false, true, false], 0) := by decide

/-- G9, G6, G7, G8: a collision that also lights a cell, no rows, a fault, and coordinates in VF. -/
theorem test_drw_collides :
    sees (fun t => (cells [(0, 0), (1, 0)] t, t.getV vf)) (ran 0xD011 (withPixel 1 0 (withI 0x300 [0xC0] .reset))) =
      some ([true, false], 1) ∧
    sees (fun t => (cells [(0, 0)] t, t.getV vf, t.halt))
      (ran 0xD010 (withPixel 0 0 (withV [(vf, 0x55)] (State.reset.setI 0xFFFF)))) = some ([true], 0, none) ∧
    sees (fun t => (t.halt, t.getV vf)) (ran 0xD013 (withV [(vf, 0x55)] (State.reset.setI 0xFFE))) =
      some (some ⟨.outOfBoundsAddress 0x1000, 0x0200⟩, 0x55) ∧
    sees (fun t => (cells [(3, 3)] t, t.getV vf)) (ran 0xDFF1 (withV [(vf, 3)] (withI 0x300 [0x80] .reset))) =
      some ([true], 0) := by decide

/-! ### Timers and keys -/

/-- T1, T2. -/
theorem test_ld_vx_dt :
    sees (fun t => (t.getV 3, t.dt)) (ran 0xF307 (State.reset.setDt 0x10)) = some (0x10, 0x0F) ∧
    sees (fun t => (t.getV 3, t.dt)) (ran 0xF307 .reset) = some (0, 0) := by decide

/-- T3, T4. -/
theorem test_ld_dt_vx :
    sees (fun t => t.dt) (ran 0xF015 (withV [(0, 3)] .reset)) = some 2 ∧
    sees (fun t => t.dt) (ran 0xF015 (State.reset.setDt 9)) = some 0 := by decide

/-- T5, T7. -/
theorem test_ld_st_vx :
    sees (fun t => (t.st, t.reply)) (ran 0xF418 (withV [(4, 1)] .reset)) = some (0, some (.executed true)) ∧
    sees (fun t => (t.st, t.reply)) (ran 0xF018 (State.reset.setSt 5)) = some (0, some (.executed false)) := by decide

/-- T9, T10, T14. -/
theorem test_skp :
    sees (fun t => t.pc) (ran 0xE29E ((withKey 5 (withV [(2, 5)] .reset)).setPc 0x0300)) = some 0x0304 ∧
    sees (fun t => t.pc) (ran 0xE29E ((withKey 6 (withV [(2, 5)] .reset)).setPc 0x0300)) = some 0x0302 ∧
    sees (fun t => t.pc) (ran 0xE09E (withKey 0 (withV [(0, 0x10)] (masked .reset)))) = some 0x0204 := by decide

/-- T13. -/
theorem test_skp_fault :
    sees (fun t => (t.halt, t.pc)) (ran 0xE09E (withKey 0 (withV [(0, 0x10)] .reset))) =
      some (some ⟨.hexDigitOutOfRange 0x10, 0x0200⟩, 0x0202) := by decide

/-- T11, T12. -/
theorem test_sknp :
    sees (fun t => t.pc) (ran 0xE2A1 ((withV [(2, 5)] .reset).setPc 0x0300)) = some 0x0304 ∧
    sees (fun t => t.pc) (ran 0xE2A1 ((withKey 5 (withV [(2, 5)] .reset)).setPc 0x0300)) = some 0x0302 := by decide

/-- T15. -/
theorem test_ld_vx_k_waits :
    sees (fun t => (t.reply, t.pc, t.dt, t.st)) (ran 0xF20A (((State.reset.setDt 5).setSt 1).setPc 0x0206)) =
      some (some .waiting, 0x0206, 5, 1) := by decide

/-- T16, T17. -/
theorem test_ld_vx_k :
    sees (fun t => (t.reply, t.getV 2, t.pc, t.dt, t.st))
      (ran 0xF20A (withKeys 7 10 (((State.reset.setDt 5).setSt 1).setPc 0x0206))) =
      some (some (.executed true), 7, 0x0208, 4, 0) ∧
    sees (fun t => t.getV vf) (ran 0xFF0A (withKey 9 (withV [(vf, 0x55)] .reset))) = some 9 := by decide

/-! ### Witnesses: the hypotheses of each statement, met together, at the ends of their ranges -/

theorem witness_EncodeInvertsDecode : decode 0x8FFE#16 = .ok (.shl 0xF#4 0xF#4) := by decide

theorem witness_DecodeFollowsTheOpcodeTable :
    decode 0xFF65#16 = .ok (.ldVxMem 0xF#4) ∧ wordInTable 0xFF66#16 = false := by decide

theorem witness_AssembleGivesTheOneWord :
    ({ n := 16 } : OperandValues).wellFormed (rowOf (.drw 0 0 0)).format = false := by decide

/-- A state with a word at PC 0x0FFE. -/
def lastWord (w : Word) : State := placeWord (State.reset.setPc 0x0FFE) w

theorem witness_StepRunsTheDecodedInstruction :
    (lastWord 0x00E0).halt = none ∧ (lastWord 0x00E0).pc.toNat ≤ 0x0FFE ∧
    decode (bigEndian ((lastWord 0x00E0).byte (lastWord 0x00E0).pc.toNat)
      ((lastWord 0x00E0).byte ((lastWord 0x00E0).pc.toNat + 1))) = .ok .cls ∧
    ∃ t, exec .cls ((lastWord 0x00E0).setPc ((lastWord 0x00E0).pc + 2)) = .next t :=
  ⟨rfl, by decide, by decide, _, rfl⟩

theorem witness_FetchReadsTwoBytesOrFaults :
    (lastWord 0).pc.toNat + 1 ≤ 0x0FFF ∧ (State.reset.setPc 0x0FFF).halt = none ∧
    0x0FFF < (State.reset.setPc 0x0FFF).pc.toNat + 1 ∧ 0x0FFF < (State.reset.setPc 0xFFFF).pc.toNat + 1 := by decide

theorem witness_UnknownOpcodeTakesItsFault :
    State.reset.halt = none ∧ fetch State.reset = .ok 0#16 ∧ wordInTable 0#16 = false := by decide

theorem witness_HaltedCoreAnswersItsFault :
    (State.reset.setHalt (some ⟨.stackOverflow, 0x0200⟩)).halt = some ⟨.stackOverflow, 0x0200⟩ ∧
    step (State.reset.setHalt (some ⟨.stackOverflow, 0x0200⟩)) = .fault (.halted ⟨.stackOverflow, 0x0200⟩) ∧
    State.reset.halt = none ∧ ∃ t, step State.reset = .next t :=
  ⟨rfl, rfl, rfl, _, rfl⟩

/-- Each of the three outcomes is reached from a running core. -/
theorem witness_EveryStepEndsInOneOfThreeOutcomes :
    State.reset.halt = none ∧ sees (fun t => (t.reply, t.halt)) (ran 0x00E0 .reset) = some (some (.executed false), none) ∧
    sees (fun t => t.reply) (ran 0xF00A .reset) = some (some .waiting) ∧
    sees (fun t => t.reply) (ran 0x00EE .reset) = some (some (.faulted ⟨.stackUnderflow, 0x0200⟩)) := by decide

theorem witness_TickFollowsACompletedInstruction :
    Completed (State.reset.setReply (.executed false)) ∧ (State.reset.setReply .waiting).reply = some .waiting ∧
    (State.reset.setReply (.faulted ⟨.stackOverflow, 0⟩)).reply = some (.faulted ⟨.stackOverflow, 0⟩) :=
  ⟨rfl, rfl, rfl⟩

theorem witness_TimersCountExecutedStepsOnly :
    fetch (lastWord 0x7FFF) = .ok 0x7FFF#16 ∧ decode 0x7FFF#16 = .ok (.addImm 0xF#4 0xFF#8) ∧
    (∀ x, Instr.addImm 0xF#4 0xFF#8 ≠ .ldDtVx x) ∧ (∀ x, Instr.addImm 0xF#4 0xFF#8 ≠ .ldStVx x) ∧
    ∃ t, step (lastWord 0x7FFF) = .next t :=
  ⟨by decide, by decide, by simp, by simp, _, rfl⟩

/-- A state whose next Step stores three bytes at the end of memory. -/
def storesLast : State := placeWord (State.reset.setI 0x0FFD) 0xF033

theorem witness_StepKeepsMemoryCanonical : storesLast.MemWf ∧ ∃ t, step storesLast = .next t :=
  ⟨by decide, _, rfl⟩

theorem witness_StepKeepsAddressesBounded :
    (withStack 16 15 0x1000 (State.reset.setPc 0x10FE)).PcBounded ∧
    ∃ t, step (withStack 16 15 0x1000 (State.reset.setPc 0x10FE)) = .next t :=
  ⟨by unfold State.PcBounded; decide, _, rfl⟩

theorem witness_StepKeepsHaltAgreement :
    State.reset.HaltAgrees ∧ ∃ t, step State.reset = .next t :=
  ⟨fun f => ⟨fun h => (by cases h), fun h => (by cases h)⟩, _, rfl⟩

theorem witness_StepNeverWritesTheProtectedFont :
    (guarded storesLast).params.fontProtect = true ∧ (∃ t, step (guarded storesLast) = .next t) ∧ 0x4F < 0x50 :=
  ⟨rfl, ⟨_, rfl⟩, by decide⟩

theorem witness_ExecuteChangesOnlyItsComponents : ∃ t, exec (.ldB 0) (State.reset.setI 0x0FFD) = .next t := ⟨_, rfl⟩

theorem witness_ExecuteChangesOnlyItsRegisters : ∃ t, exec (.addReg 0xE 0xF) State.reset = .next t := ⟨_, rfl⟩

theorem witness_StepChangesOnlyWhatItsInstructionWrites :
    (∃ t, step storesLast = .next t) ∧ ∃ t, step State.reset = .next t := ⟨⟨_, rfl⟩, _, rfl⟩

/-- A state whose next Step stores the digits 2, 5, 5 at the end of memory. -/
def stores255 : State := placeWord (withV [(0, 0xFF)] (State.reset.setI 0x0FFD)) 0xF033

/-- A state whose next Step stores V0 to VF, V0 nonzero, at the end of memory. -/
def storesBlock : State := placeWord (withV [(0, 7), (vf, 9)] (State.reset.setI 0x0FF0)) 0xFF55

theorem witness_StepWritesMemoryOnlyByStores :
    (∃ t, step stores255 = .next t ∧ t.byte 0x0FFF ≠ stores255.byte 0x0FFF) ∧
    ∃ t, step storesBlock = .next t ∧ t.byte 0x0FFF ≠ storesBlock.byte 0x0FFF :=
  ⟨⟨_, rfl, by decide⟩, _, rfl, by decide⟩

theorem witness_KeyWaitRepeatsWhileKeysAreUp :
    (lastWord 0xFF0A).halt = none ∧ fetch (lastWord 0xFF0A) = .ok 0xFF0A#16 ∧ decode 0xFF0A#16 = .ok (.ldVxK 0xF#4) ∧
    ∀ k, (lastWord 0xFF0A).key k = false := by decide

theorem witness_ParkedCoreStaysParked :
    (placeWord State.reset 0x1200).parked = true ∧ (lastWord 0x1FFE).parked = true := by decide

theorem witness_ReadIsBoundChecked : 0x0FFF ≤ 0x0FFF ∧ 0x1000 ≤ 0x1000 := by decide

theorem witness_WriteChangesOneByteOrFaults :
    (guarded State.reset).params.fontProtect = true ∧ (0x0050 ≤ 0x0FFF ∧ 0x50 ≤ 0x0050) ∧ 0x1000 ≤ 0x1000 ∧
    0x004F ≤ 0x004F := by decide

theorem witness_WordRoundTrip :
    0x0FFE ≤ 0x0FFE ∧ ((guarded State.reset).params.fontProtect = true → 0x50 ≤ 0x0FFE) := by decide

/-- An image of the given length. -/
def image (n : Nat) : List Byte := List.replicate n 0xAA

theorem image_length (n : Nat) : (image n).length = n := List.length_replicate

theorem witness_LoadPortWritesTheImageOrRefuses :
    State.reset.reply = none ∧ (image 3584).length ≤ 3584 ∧ 3584 < (image 3585).length ∧
    (State.reset.setReply .waiting).reply ≠ none :=
  ⟨rfl, Nat.le_of_eq (image_length 3584), Nat.lt_of_lt_of_eq (Nat.lt_succ_self 3584) (image_length 3585).symm, by decide⟩

theorem witness_DisplayPortReadsOrRefuses : (63 < 64 ∧ 31 < 32) ∧ (64 ≤ 64 ∨ 32 ≤ 31) ∧ (64 ≤ 63 ∨ 32 ≤ 32) := by decide

theorem witness_FirstStepFetchesTheImage : (image 3584).length ≤ 3584 := Nat.le_of_eq (image_length 3584)

theorem witness_StoredBytesAreFetched :
    1 ≤ (1 : Nibble).toNat ∧ ∃ t, exec (.ldMemVx 1) (State.reset.setI 0x0FFE) = .next t ∧ Completed t :=
  ⟨by decide, _, rfl, rfl⟩

theorem witness_CallPushesThenJumpsOrOverflows :
    (withStack 15 0 0 .reset).sp.val < 16 ∧ (withStack 16 0 0 .reset).sp.val = 16 := by decide

theorem witness_ReturnPopsToPcOrUnderflows :
    0 < (withStack 1 0 0x0206 .reset).sp.val ∧ State.reset.sp.val = 0 := by decide

theorem witness_CallThenReturnComesBack :
    ∃ t, exec (.call 0x300) (withStack 15 0 0 .reset) = .next t ∧ Completed t ∧ t.stack = t.stack ∧ t.sp = t.sp :=
  ⟨_, rfl, rfl, rfl, rfl⟩

/-- For the statements of ADD, SUB, SUBN and SHR: a destination other than VF. -/
theorem witness_flag_writers : (0xE : Nibble) ≠ vf := by decide

theorem witness_ShlDoublesAndKeepsTheChosenBit :
    (0xE : Nibble) ≠ vf ∧ State.reset.params.shlFlagBit = .bit7 ∧ (bitZero State.reset).params.shlFlagBit = .bit0 := by
  decide

theorem witness_RandomByteIsMasked : (0x00 : Byte) = 0 := by decide

theorem witness_LoadFontAddressOfDigit :
    ((withV [(3, 0x0F)] State.reset).getV 3).toNat ≤ 0x0F ∧
    (0x0F < ((withV [(3, 0x10)] (masked State.reset)).getV 3).toNat ∧
      (withV [(3, 0x10)] (masked State.reset)).params.hexDigitPolicy = .mask) ∧
    (0x0F < ((withV [(3, 0x10)] State.reset).getV 3).toNat ∧
      (withV [(3, 0x10)] State.reset).params.hexDigitPolicy = .fault) := by decide

theorem witness_StoreBcdDigits :
    ((State.reset.setI 0x0FFD).ea + 2 ≤ 0x0FFF ∧ ((guarded (State.reset.setI 0x0050)).ea + 2 ≤ 0x0FFF ∧
      ((guarded (State.reset.setI 0x0050)).params.fontProtect = true → 0x50 ≤ (guarded (State.reset.setI 0x0050)).ea))) ∧
    0x0FFF < (State.reset.setI 0x0FFE).ea + 2 ∧
    ((guarded (State.reset.setI 0x004F)).params.fontProtect = true ∧ (guarded (State.reset.setI 0x004F)).ea ≤ 0x004F) := by
  decide

theorem witness_StoreBlockOfRegisters :
    ((State.reset.setI 0x0FF0).ea + (0xF : Nibble).toNat ≤ 0x0FFF ∧
      ((State.reset.setI 0x0FF0).params.fontProtect = true → 0x50 ≤ (State.reset.setI 0x0FF0).ea)) ∧
    (0x0FFF < (State.reset.setI 0x0FF1).ea + (0xF : Nibble).toNat ∧
      ((State.reset.setI 0x0FF1).params.fontProtect = true → 0x50 ≤ (State.reset.setI 0x0FF1).ea)) ∧
    ((guarded (State.reset.setI 0x004F)).params.fontProtect = true ∧ (guarded (State.reset.setI 0x004F)).ea ≤ 0x004F) := by
  decide

theorem witness_LoadBlockOfRegisters :
    (State.reset.setI 0x0FF0).ea + (0xF : Nibble).toNat ≤ 0x0FFF ∧
    0x0FFF < (State.reset.setI 0x0FFF).ea + (0x1 : Nibble).toNat := by decide

theorem witness_DrawFlipsTheCoveredCells :
    (0 : Nibble) = 0 ∧ (State.reset.setI 0x0FFE).ea + (2 : Nibble).toNat ≤ 0x1000 ∧ (3 : Nibble) ≠ 0 ∧
    0x1000 < (State.reset.setI 0x0FFE).ea + (3 : Nibble).toNat := by decide

theorem witness_DrawTwiceRestoresTheBuffer :
    (0xE : Nibble) ≠ vf ∧ (1 : Nibble) ≠ vf ∧ ∃ t, exec (.drw 0xE 1 0xF) State.reset = .next t ∧ Completed t :=
  ⟨by decide, by decide, _, rfl, rfl⟩

theorem witness_SkipOnKeyReadsTheNamedKey :
    ((withV [(3, 0x0F)] State.reset).getV 3).toNat ≤ 0x0F ∧ (masked State.reset).params.hexDigitPolicy = .mask ∧
    (0x0F < ((withV [(3, 0x10)] State.reset).getV 3).toNat ∧
      (withV [(3, 0x10)] State.reset).params.hexDigitPolicy = .fault) := by decide

theorem witness_KeyReadTakesTheLowestOrWaits :
    ((withKeys 0xE 0xF .reset).key 0xE = true ∧
      ∀ j : Nibble, j.toNat < (0xE : Nibble).toNat → (withKeys 0xE 0xF .reset).key j = false) ∧
    ∀ k, State.reset.key k = false := by decide

/-- Log 8: a one-cell sprite drawn on a lit cell turns it off with VF = 1, and drawn again turns it on with
VF = 0, as the pseudocode of R183 gives. -/
theorem witness_draw_twice_on_a_lit_cell :
    sees (fun t => (cells [(0, 0)] t, t.getV vf)) (ran 0xD011 (withPixel 0 0 (withI 0x300 [0x80] .reset))) =
      some ([false], 1) ∧
    sees (fun t => (cells [(0, 0)] t, t.getV vf)) (ran 0xD011 (withV [(vf, 1)] (withI 0x300 [0x80] .reset))) =
      some ([true], 0) := by decide

end Sys2Proof.Tests
end

section
/-! PROOFS. The statements about the state (10_state.md): what Execute and a Step leave unchanged, the addresses a
Step keeps bounded, the timers, and the state after reset. Each update of the state gets one frame rule; `exec_frame`
puts them together once for all 34 instructions, and the statements about a Step follow from it. -/

namespace Sys2Proof.Machine

/-! ### Frames compose -/

theorem Unchanged.trans {s t u : State} {p : Part} (h₁ : Unchanged s t p) (h₂ : Unchanged t u p) :
    Unchanged s u p := by
  cases p with
  | mem => exact fun a => (h₂ a).trans (h₁ a)
  | stack => exact ⟨h₂.1.trans h₁.1, h₂.2.trans h₁.2⟩
  | _ => exact Eq.trans h₂ h₁

theorem OnlyChanges.refl (ps : List Part) (s : State) : OnlyChanges ps s s := by
  intro p _
  cases p <;> simp [Unchanged]

theorem OnlyChanges.mono {ps qs : List Part} {s t : State} (h : OnlyChanges ps s t) (hsub : ps ⊆ qs) :
    OnlyChanges qs s t :=
  fun p hp => h p fun hq => hp (hsub hq)

theorem OnlyChanges.trans {ps qs : List Part} {s t u : State} (h₁ : OnlyChanges ps s t)
    (h₂ : OnlyChanges qs t u) : OnlyChanges (ps ++ qs) s u := by
  intro p hp
  rw [List.mem_append, not_or] at hp
  exact (h₁ p hp.1).trans (h₂ p hp.2)

theorem VExcept.of_v_eq {rs : List Nibble} {s t : State} (h : t.v = s.v) : VExcept rs s t :=
  fun r _ => by simp only [State.getV, h]

/-! ### One frame rule per update of the state -/

section Updates
variable (s : State)

theorem onlyChanges_setV (r : Nibble) (b : Byte) : OnlyChanges [.v] s (s.setV r b) := by
  intro p hp
  cases p <;> simp_all [Unchanged]

theorem onlyChanges_setVs (w : Vector Byte 16) : OnlyChanges [.v] s (s.setVs w) := by
  intro p hp
  cases p <;> simp_all [Unchanged]

theorem onlyChanges_setI (w : Word) : OnlyChanges [.i] s (s.setI w) := by
  intro p hp
  cases p <;> simp_all [Unchanged]

theorem onlyChanges_setPc (w : Word) : OnlyChanges [.pc] s (s.setPc w) := by
  intro p hp
  cases p <;> simp_all [Unchanged]

theorem onlyChanges_setStack (k : Vector Word 16) (n : Fin 17) : OnlyChanges [.stack] s (s.setStack k n) := by
  intro p hp
  cases p <;> simp_all [Unchanged]

theorem onlyChanges_setDt (b : Byte) : OnlyChanges [.dt] s (s.setDt b) := by
  intro p hp
  cases p <;> simp_all [Unchanged]

theorem onlyChanges_setSt (b : Byte) : OnlyChanges [.st] s (s.setSt b) := by
  intro p hp
  cases p <;> simp_all [Unchanged]

theorem onlyChanges_setMem (m : Memory) : OnlyChanges [.mem] s (s.setMem m) := by
  intro p hp
  cases p <;> simp_all [Unchanged]

theorem onlyChanges_setGfx (g : Gfx) : OnlyChanges [.gfx] s (s.setGfx g) := by
  intro p hp
  cases p <;> simp_all [Unchanged]

theorem onlyChanges_setHalt (f : Option FaultRecord) : OnlyChanges [.halt] s (s.setHalt f) := by
  intro p hp
  cases p <;> simp_all [Unchanged]

theorem onlyChanges_setDraws (n : Nat) : OnlyChanges [.draws] s (s.setDraws n) := by
  intro p hp
  cases p <;> simp_all [Unchanged]

/-- The reply is no component of R20. -/
theorem onlyChanges_setReply (r : Reply) : OnlyChanges [] s (s.setReply r) := by
  intro p _
  cases p <;> simp [Unchanged]

theorem onlyChanges_haltWith (k : FaultKind) (a : Word) : OnlyChanges [.halt] s (haltWith k a s) :=
  (onlyChanges_setHalt s _).trans (onlyChanges_setReply _ _)

theorem onlyChanges_tick : OnlyChanges [.dt, .st] s (tick s) :=
  ((onlyChanges_setDt s _).trans (onlyChanges_setSt _ _)).trans (onlyChanges_setReply _ _)

theorem onlyChanges_finish : OnlyChanges [.dt, .st] s (finish s) := by
  unfold finish
  split
  · exact onlyChanges_tick s
  · exact .refl _ s

end Updates

/-! ### The frame of an instruction -/

/-- `t` differs from `s` at most in the halt record, the given components and, among V0 to VF, the given
registers. -/
structure ExecFrame (ps : List Part) (rs : List Nibble) (s t : State) : Prop where
  parts : OnlyChanges (.halt :: ps) s t
  regs : VExcept rs s t

theorem execFrame_complete {ps : List Part} {rs : List Nibble} {s u t : State} (h : complete u = .next t)
    (hp : OnlyChanges ps s u) (hr : VExcept rs s u) : ExecFrame ps rs s t := by
  cases h
  exact ⟨(hp.trans (onlyChanges_setReply u _)).mono (by simp), hr⟩

theorem execFrame_raise {ps : List Part} {rs : List Nibble} {s t : State} {k : FaultKind}
    (h : raise k s = .next t) : ExecFrame ps rs s t := by
  cases h
  exact ⟨(onlyChanges_haltWith s k _).mono (by simp), .of_v_eq rfl⟩

theorem execFrame_skipIf {s t : State} {c : Bool} (h : skipIf c s = .next t) : ExecFrame [.pc] [] s t := by
  cases c with
  | false => exact execFrame_complete h (.refl _ s) (.of_v_eq rfl)
  | true => exact execFrame_complete h (onlyChanges_setPc s _) (.of_v_eq rfl)

theorem vExcept_setV (s : State) (x : Nibble) (b : Byte) : VExcept [x] s (s.setV x b) := by
  intro r hr
  rw [getV_setV, if_neg (by simpa using hr)]

theorem execFrame_setV {s t : State} {x : Nibble} {b : Byte} (h : complete (s.setV x b) = .next t) :
    ExecFrame [.v] [x] s t :=
  execFrame_complete h (onlyChanges_setV s x b) (vExcept_setV s x b)

theorem execFrame_writeResultAndFlag {s t : State} {x : Nibble} {result flag : Byte}
    (h : complete (writeResultAndFlag x result flag s) = .next t) : ExecFrame [.v] [x, vf] s t := by
  refine execFrame_complete h ?_ ?_
  · exact ((onlyChanges_setV s x result).trans (onlyChanges_setV _ vf flag)).mono (by simp)
  · intro r hr
    simp only [List.mem_cons, List.not_mem_nil, or_false, not_or] at hr
    rw [getV_writeResultAndFlag, if_neg hr.2, if_neg hr.1]

/-- The registers Fx65 writes are V0 to Vx (42_index_memory.md R165). -/
theorem mem_writtenRegs_ldVxMem (x r : Nibble) : r ∈ writtenRegs (.ldVxMem x) ↔ r.toNat ≤ x.toNat := by
  have hx := x.isLt
  simp only [writtenRegs, List.mem_map, List.mem_range]
  constructor
  · rintro ⟨k, hk, rfl⟩
    rw [BitVec.toNat_ofNat, Nat.mod_eq_of_lt (by omega)]
    omega
  · intro hr
    exact ⟨r.toNat, by omega, by simp⟩

theorem vExcept_loadBlock (s : State) (x : Nibble) {bytes : List Byte}
    (hlen : bytes.length = x.toNat + 1) :
    VExcept (writtenRegs (.ldVxMem x)) s (s.setVs (loadBlock 0 bytes s.v)) := by
  intro r hr
  rw [mem_writtenRegs_ldVxMem] at hr
  simp only [State.getV, State.setVs_v, loadBlock_getElem, Nat.zero_le, if_true, Nat.sub_zero]
  rw [List.getD_eq_default _ _ (by omega)]

theorem memRead_length {s : State} {addr n : Nat} {bytes : List Byte} (h : memRead s addr n = .ok bytes) :
    bytes.length = n := by
  rw [memRead_eq] at h
  split at h
  · cases h
    exact bytes_length s addr n
  · cases h

/-- Everything an instruction leaves unchanged (10_state.md R20, R21, R22). -/
theorem exec_frame {i : Instr} {s t : State} (h : exec i s = .next t) :
    ExecFrame (writtenParts i) (writtenRegs i) s t := by
  cases i with
  | cls => exact execFrame_complete h (onlyChanges_setGfx s _) (.of_v_eq rfl)
  | ret =>
    simp only [exec, execRet] at h
    rcases pop_cases s with ⟨_, e⟩ | ⟨n, hn, _, e⟩ <;> rw [e] at h
    · exact execFrame_raise h
    · exact execFrame_complete h
        (((onlyChanges_setStack s _ _).trans (onlyChanges_setPc _ _)).mono (by simp [writtenParts]))
        (.of_v_eq rfl)
  | jp nnn => exact execFrame_complete h (onlyChanges_setPc s _) (.of_v_eq rfl)
  | call nnn =>
    simp only [exec, execCall] at h
    rcases push_cases s s.pc with ⟨hn, e⟩ | ⟨_, e⟩ <;> rw [e] at h
    · exact execFrame_complete h
        (((onlyChanges_setStack s _ _).trans (onlyChanges_setPc _ _)).mono (by simp [writtenParts]))
        (.of_v_eq rfl)
    · exact execFrame_raise h
  | seImm x kk => exact execFrame_skipIf h
  | sneImm x kk => exact execFrame_skipIf h
  | seReg x y => exact execFrame_skipIf h
  | sneReg x y => exact execFrame_skipIf h
  | ldImm x kk => exact execFrame_setV h
  | addImm x kk => exact execFrame_setV h
  | ldReg x y => exact execFrame_setV h
  | or x y => exact execFrame_setV h
  | and x y => exact execFrame_setV h
  | xor x y => exact execFrame_setV h
  | addReg x y => exact execFrame_writeResultAndFlag h
  | sub x y => exact execFrame_writeResultAndFlag h
  | shr x y => exact execFrame_writeResultAndFlag h
  | subn x y => exact execFrame_writeResultAndFlag h
  | shl x y => exact execFrame_writeResultAndFlag h
  | ldI nnn => exact execFrame_complete h (onlyChanges_setI s _) (.of_v_eq rfl)
  | jpV0 nnn => exact execFrame_complete h (onlyChanges_setPc s _) (.of_v_eq rfl)
  | rnd x kk =>
    exact execFrame_complete h
      (((onlyChanges_setDraws s _).trans (onlyChanges_setV _ _ _)).mono (by simp [writtenParts]))
      (vExcept_setV (consumeRnd s) x _)
  | drw x y n =>
    simp only [exec, execDrw] at h
    split at h
    · exact execFrame_complete h ((onlyChanges_setV s vf _).mono (by simp [writtenParts])) (vExcept_setV s vf _)
    · split at h
      · exact execFrame_raise h
      · exact execFrame_complete h
          (((onlyChanges_setGfx s _).trans (onlyChanges_setV _ _ _)).mono (by simp [writtenParts]))
          (vExcept_setV (s.setGfx _) vf _)
  | skp x =>
    simp only [exec, execSkp] at h
    split at h
    · exact execFrame_raise h
    · exact execFrame_skipIf h
  | sknp x =>
    simp only [exec, execSknp] at h
    split at h
    · exact execFrame_raise h
    · exact execFrame_skipIf h
  | ldVxDt x => exact execFrame_setV h
  | ldVxK x =>
    simp only [exec, execLdVxK] at h
    split at h
    · exact execFrame_complete h ((onlyChanges_setV s x _).mono (by simp [writtenParts])) (vExcept_setV s x _)
    · cases h
      exact ⟨((onlyChanges_setPc s _).trans (onlyChanges_setReply _ _)).mono (by simp [writtenParts]), .of_v_eq rfl⟩
  | ldDtVx x => exact execFrame_complete h (onlyChanges_setDt s _) (.of_v_eq rfl)
  | ldStVx x => exact execFrame_complete h (onlyChanges_setSt s _) (.of_v_eq rfl)
  | addI x => exact execFrame_complete h (onlyChanges_setI s _) (.of_v_eq rfl)
  | ldF x =>
    simp only [exec, execLdF] at h
    split at h
    · exact execFrame_raise h
    · exact execFrame_complete h (onlyChanges_setI s _) (.of_v_eq rfl)
  | ldB x =>
    simp only [exec, execLdB] at h
    split at h
    · exact execFrame_raise h
    · rename_i u e
      obtain ⟨rfl, _⟩ := memWrite_ok e
      exact execFrame_complete h (onlyChanges_setMem s _) (.of_v_eq rfl)
  | ldMemVx x =>
    simp only [exec, execLdMemVx] at h
    split at h
    · exact execFrame_raise h
    · rename_i u e
      obtain ⟨rfl, _⟩ := memWrite_ok e
      exact execFrame_complete h (onlyChanges_setMem s _) (.of_v_eq rfl)
  | ldVxMem x =>
    simp only [exec, execLdVxMem] at h
    split at h
    · exact execFrame_raise h
    · rename_i bytes e
      exact execFrame_complete h (onlyChanges_setVs s _) (vExcept_loadBlock s x (memRead_length e))

/-- Settles O20: the component half of `exec_frame`. -/
theorem executeChangesOnlyItsComponents : Obligations.ExecuteChangesOnlyItsComponents :=
  fun _ _ _ h => (exec_frame h).parts

/-- Settles O21: the register half of `exec_frame`. -/
theorem executeChangesOnlyItsRegisters : Obligations.ExecuteChangesOnlyItsRegisters :=
  fun _ _ _ h => (exec_frame h).regs

/-! ### The frame of a Step -/

theorem getV_finish (u : State) (r : Nibble) : (finish u).getV r = u.getV r := by
  have hv : (finish u).v = u.v := onlyChanges_finish u .v (by decide)
  simp only [State.getV, hv]

/-- Settles O22: a Step that decodes an instruction is the advance, then Execute, then the tick, and the three
frames compose; any other Step takes a fault. -/
theorem stepChangesOnlyWhatItsInstructionWrites : Obligations.StepChangesOnlyWhatItsInstructionWrites := by
  intro s t h
  obtain ⟨_, ⟨k, _, rfl⟩ | ⟨w, e, _, _, rfl⟩ | ⟨w, i, u, hw, hi, hu, rfl⟩⟩ := step_cases h
  · exact .inl ((onlyChanges_haltWith s k _).mono (by decide))
  · exact .inl ((onlyChanges_setPc s _).trans (onlyChanges_haltWith _ _ _))
  · have hf := exec_frame hu
    refine .inr ⟨w, i, hw, hi, ?_, fun r hr => ?_⟩
    · refine (((onlyChanges_setPc s _).trans hf.parts).trans (onlyChanges_finish u)).mono ?_
      intro p hp
      simp only [List.mem_append, List.mem_cons, List.not_mem_nil, or_false] at hp ⊢
      tauto
    · exact (getV_finish u r).trans (hf.regs r hr)

/-! ### Bounded addresses (10_state.md R25) -/

theorem State.PcBounded.of_unchanged {s t : State} (hs : s.PcBounded) (hpc : Unchanged s t .pc)
    (hstack : Unchanged s t .stack) : t.PcBounded := by
  obtain ⟨hp, hk⟩ := hs
  refine ⟨?_, fun k => ?_⟩
  · rw [show t.pc = s.pc from hpc]
    exact hp
  · simp only [hstack.1]
    exact hk k

theorem State.PcBounded.of_onlyChanges {ps : List Part} {s t : State} (hs : s.PcBounded) (h : OnlyChanges ps s t)
    (hpc : .pc ∉ ps) (hstack : .stack ∉ ps) : t.PcBounded :=
  hs.of_unchanged (h _ hpc) (h _ hstack)

theorem pcBounded_complete {u t : State} (h : complete u = .next t) (hu : u.PcBounded) : t.PcBounded := by
  cases h
  exact hu

theorem pcBounded_raise {s t : State} {k : FaultKind} (h : raise k s = .next t) (hs : s.PcBounded) :
    t.PcBounded := by
  cases h
  exact hs

theorem pcBounded_setPc {s : State} {w : Word} (hs : s.PcBounded) (hw : w.toNat ≤ 0x10FE) :
    (s.setPc w).PcBounded :=
  ⟨hw, hs.2⟩

/-- What Execute may assume where the bounds held before the Step: PC is the advanced address of a fetch that
succeeded, and the stack entries are bounded. -/
structure Fetched (s : State) : Prop where
  two_le_pc : 2 ≤ s.pc.toNat
  pc_le : s.pc.toNat ≤ 0x1000
  stack_le : ∀ k : Fin 16, s.stack[k].toNat ≤ 0x1000

theorem Fetched.pcBounded {s : State} (hs : Fetched s) : s.PcBounded :=
  ⟨hs.pc_le.trans (by decide), hs.stack_le⟩

/-- A fetch succeeds only where PC + 1 is inside memory, so the advance does not wrap (30_encoding.md R74,
R75). -/
theorem fetched_advance {s : State} {w : Word} (hs : s.PcBounded) (hw : fetch s = .ok w) :
    Fetched (advance s) := by
  have hle : s.pc.toNat ≤ 0x0FFE := by
    by_contra hgt
    rw [fetch_eq, if_neg hgt] at hw
    cases hw
  have hpc : (advance s).pc.toNat = s.pc.toNat + 2 := by
    simp only [advance, State.setPc_pc]
    bv_omega
  exact ⟨by omega, by omega, hs.2⟩

theorem pcBounded_skipIf {s t : State} {c : Bool} (hs : Fetched s) (h : skipIf c s = .next t) :
    t.PcBounded := by
  have hle := hs.pc_le
  cases c with
  | false => exact pcBounded_complete h hs.pcBounded
  | true => exact pcBounded_complete h (pcBounded_setPc hs.pcBounded (by bv_omega))

theorem pcBounded_execRet {s t : State} (hs : Fetched s) (h : execRet s = .next t) : t.PcBounded := by
  simp only [execRet] at h
  rcases pop_cases s with ⟨_, e⟩ | ⟨n, hn, _, e⟩ <;> rw [e] at h
  · exact pcBounded_raise h hs.pcBounded
  · have htarget : (s.stack[n]'(by omega)).toNat ≤ 0x1000 := hs.stack_le ⟨n, by omega⟩
    exact pcBounded_complete h ⟨htarget.trans (by decide), hs.stack_le⟩

/-- CALL pushes a + 2, which a fetched instruction keeps at most 0x1000 (40_control.md R105). -/
theorem pcBounded_execCall {s t : State} {nnn : Addr} (hs : Fetched s) (h : execCall nnn s = .next t) :
    t.PcBounded := by
  simp only [execCall] at h
  rcases push_cases s s.pc with ⟨hn, e⟩ | ⟨_, e⟩ <;> rw [e] at h
  · refine pcBounded_complete h ⟨?_, fun k => ?_⟩
    · have := nnn.isLt
      simp only [State.setPc_pc, zextAddr_toNat]
      omega
    · simp only [State.setPc_stack, State.setStack_stack, Fin.getElem_fin, Vector.getElem_set]
      split
      · exact hs.pc_le
      · exact hs.stack_le k
  · exact pcBounded_raise h hs.pcBounded

theorem pcBounded_execJp {s t : State} {nnn : Addr} (hs : Fetched s) (h : execJp nnn s = .next t) :
    t.PcBounded := by
  have := nnn.isLt
  exact pcBounded_complete h (pcBounded_setPc hs.pcBounded (by rw [zextAddr_toNat]; omega))

/-- nnn + V0 is at most 0xFFF + 0xFF = 0x10FE, the bound of R25 (40_control.md R110, decision D10). -/
theorem pcBounded_execJpV0 {s t : State} {nnn : Addr} (hs : Fetched s) (h : execJpV0 nnn s = .next t) :
    t.PcBounded := by
  have := nnn.isLt
  have := (s.getV 0).isLt
  refine pcBounded_complete h (pcBounded_setPc hs.pcBounded ?_)
  rw [BitVec.toNat_add, zextAddr_toNat, zextByte_toNat]
  omega

/-- A wait puts PC back to the fetch address, which does not wrap because PC is at least 2 (44_timers_keys.md
R208). -/
theorem pcBounded_execLdVxK {s t : State} {x : Nibble} (hs : Fetched s) (h : execLdVxK x s = .next t) :
    t.PcBounded := by
  have hge := hs.two_le_pc
  have hle := hs.pc_le
  simp only [execLdVxK] at h
  split at h
  · exact pcBounded_complete h hs.pcBounded
  · cases h
    have hback : (fetchAddr s).toNat ≤ 0x10FE := by
      simp only [fetchAddr]
      bv_omega
    exact pcBounded_setPc (s := s) hs.pcBounded hback

/-- Execute keeps the bounds: the instructions that write PC or the stack one by one, every other by its
frame. -/
theorem exec_keeps_pcBounded {i : Instr} {s t : State} (hs : Fetched s) (h : exec i s = .next t) :
    t.PcBounded := by
  cases i with
  | ret => exact pcBounded_execRet hs h
  | call nnn => exact pcBounded_execCall hs h
  | jp nnn => exact pcBounded_execJp hs h
  | jpV0 nnn => exact pcBounded_execJpV0 hs h
  | seImm x kk => exact pcBounded_skipIf hs h
  | sneImm x kk => exact pcBounded_skipIf hs h
  | seReg x y => exact pcBounded_skipIf hs h
  | sneReg x y => exact pcBounded_skipIf hs h
  | skp x =>
    simp only [exec, execSkp] at h
    split at h
    · exact pcBounded_raise h hs.pcBounded
    · exact pcBounded_skipIf hs h
  | sknp x =>
    simp only [exec, execSknp] at h
    split at h
    · exact pcBounded_raise h hs.pcBounded
    · exact pcBounded_skipIf hs h
  | ldVxK x => exact pcBounded_execLdVxK hs h
  | _ => exact hs.pcBounded.of_onlyChanges (exec_frame h).parts (by simp [writtenParts]) (by simp [writtenParts])

/-- Settles O16: a fault keeps PC at a or a + 2 with a fetched, the tick moves neither PC nor the stack, and
Execute keeps the bounds from the state the advance gives it. -/
theorem stepKeepsAddressesBounded : Obligations.StepKeepsAddressesBounded := by
  intro s t hs h
  obtain ⟨_, ⟨k, _, rfl⟩ | ⟨w, e, hw, _, rfl⟩ | ⟨w, i, u, hw, _, hu, rfl⟩⟩ := step_cases h
  · exact hs.of_onlyChanges (onlyChanges_haltWith s k _) (by decide) (by decide)
  · exact (fetched_advance hs hw).pcBounded.of_onlyChanges (onlyChanges_haltWith _ _ _) (by decide) (by decide)
  · exact (exec_keeps_pcBounded (fetched_advance hs hw) hu).of_onlyChanges (onlyChanges_finish u)
      (by decide) (by decide)

/-! ### Timers (10_state.md R27) -/

theorem dt_mem_writtenParts {i : Instr} (h : .dt ∈ writtenParts i) : ∃ x, i = .ldDtVx x := by
  cases i with
  | ldDtVx x => exact ⟨x, rfl⟩
  | _ => simp [writtenParts] at h

theorem st_mem_writtenParts {i : Instr} (h : .st ∈ writtenParts i) : ∃ x, i = .ldStVx x := by
  cases i with
  | ldStVx x => exact ⟨x, rfl⟩
  | _ => simp [writtenParts] at h

theorem exec_keeps_dt {i : Instr} {s t : State} (hi : ∀ x, i ≠ .ldDtVx x) (h : exec i s = .next t) :
    t.dt = s.dt := by
  refine (exec_frame h).parts .dt fun hmem => ?_
  obtain ⟨x, hx⟩ := dt_mem_writtenParts (List.mem_of_ne_of_mem (by decide) hmem)
  exact hi x hx

theorem exec_keeps_st {i : Instr} {s t : State} (hi : ∀ x, i ≠ .ldStVx x) (h : exec i s = .next t) :
    t.st = s.st := by
  refine (exec_frame h).parts .st fun hmem => ?_
  obtain ⟨x, hx⟩ := st_mem_writtenParts (List.mem_of_ne_of_mem (by decide) hmem)
  exact hi x hx

/-- The beep's test on ST, as the model writes it and as a number (44_timers_keys.md R201). -/
theorem beq_one_eq_decide_toNat (b : Byte) : (b == 1) = decide (b.toNat = 1) := by
  rw [Bool.eq_iff_iff, beq_iff_eq, decide_eq_true_iff]
  bv_omega

/-- Settles O14: Execute leaves both timers alone, and only a completed instruction is followed by the tick. -/
theorem timersCountExecutedStepsOnly : Obligations.TimersCountExecutedStepsOnly := by
  intro s t w i hw hi hdt hst h
  obtain ⟨_, ⟨k, hk, _⟩ | ⟨w', e, hw', he, _⟩ | ⟨w', i', u, hw', hi', hu, rfl⟩⟩ := step_cases h
  · simp [hw] at hk
  · obtain rfl : w = w' := by simpa [hw] using hw'
    simp [hi] at he
  · obtain rfl : w = w' := by simpa [hw] using hw'
    obtain rfl : i = i' := by simpa [hi] using hi'
    have hudt : u.dt = s.dt := (exec_keeps_dt hdt hu).trans (State.setPc_dt s _)
    have hust : u.st = s.st := (exec_keeps_st hst hu).trans (State.setPc_st s _)
    cases exec_ends hu with
    | completed v hv =>
      have hreply : u.reply = some (.executed false) := by rw [hv, State.setReply_reply]
      rw [finish_executed u false hreply]
      refine .inl ⟨_, rfl, ?_, ?_, ?_⟩
      · rw [hust, beq_one_eq_decide_toNat]
      · exact hudt ▸ tickDown_toNat u.dt
      · exact hust ▸ tickDown_toNat u.st
    | waited hv =>
      have hreply : u.reply = some .waiting := by rw [hv, State.setReply_reply]
      rw [finish_waiting u hreply]
      exact .inr ⟨by simp [hreply], hudt, hust⟩
    | faulted k hv =>
      have hreply : u.reply = some (.faulted ⟨k, fetchAddr (advance s)⟩) := by
        rw [hv, haltWith, State.setReply_reply]
      rw [finish_faulted u _ hreply]
      exact .inr ⟨by simp [hreply], hudt, hust⟩

/-! ### Reset (70_reset_and_hazards.md R250, R251) -/

theorem pcBounded_resetWith (p : Params) : (State.resetWith p).PcBounded := by
  refine ⟨show resetPc.toNat ≤ 0x10FE by decide, fun k => ?_⟩
  simp [State.resetWith, resetStackEntry]

theorem haltAgrees_resetWith (p : Params) : (State.resetWith p).HaltAgrees := by
  intro f
  simp [State.resetWith]

theorem inv_resetWith (p : Params) : (State.resetWith p).Inv :=
  ⟨resetWith_memWf p, pcBounded_resetWith p, haltAgrees_resetWith p⟩

/-- Settles O18: the three invariants hold after reset under any parameters, the default ones among them. -/
theorem resetMeetsTheInvariants : Obligations.ResetMeetsTheInvariants :=
  ⟨inv_resetWith defaultParams, inv_resetWith⟩

/-- Memory after reset lists nothing, so it reads as FONT and then zeros. -/
theorem byte_resetWith (p : Params) (a : Nat) : (State.resetWith p).byte a = p.font.toList.getD a 0 := rfl

theorem byte_resetWith_font (p : Params) (a : Nat) (h : a < 80) : (State.resetWith p).byte a = p.font[a] := by
  simp [byte_resetWith, h]

theorem byte_resetWith_above (p : Params) (a : Nat) (h : 80 ≤ a) : (State.resetWith p).byte a = 0 := by
  simp [byte_resetWith, h]

theorem afterReset_resetWith (p : Params) : (State.resetWith p).AfterReset p := by
  refine ⟨fun r => ?_, rfl, rfl, rfl, fun k => ?_, rfl, rfl, byte_resetWith_font p, byte_resetWith_above p,
    fun cx cy => ?_, fun k => ?_, rfl, rfl⟩
  · simp [State.getV, State.resetWith, resetV]
  · simp [State.resetWith, resetStackEntry]
  · simp [pixel, State.resetWith, resetPixel]
  · simp [State.key, State.resetWith, resetKey]

/-- The draw count is no component of R20, so keeping it leaves a reset state reset. -/
theorem afterReset_portReset (s : State) : (portReset s).AfterReset s.params :=
  afterReset_resetWith s.params

/-- Settles O26: the reset port is reset under the state's own parameters, and the rows of R251 are read off the
default font. -/
theorem resetLeavesTheStatedValues : Obligations.ResetLeavesTheStatedValues :=
  ⟨afterReset_resetWith, afterReset_portReset, rfl, by decide⟩

end Sys2Proof.Machine
end

section
/-! PROOFS. The statements about memory (20_memory.md): what the accesses of R51 to R54 do, and what a Step can do to
memory. `exec_mem` says once, for all 34 instructions, that Execute keeps memory or is one of the two stores, which
writes inside memory and outside the protected font; the statements about a Step follow from it. -/

namespace Sys2Proof.Machine

/-! ### The bytes of a state after a block write -/

section BlockWrite
variable (s : State) (addr : Nat) (bytes : List Byte)

theorem memExcept_setMem_writeBytes :
    MemExcept addr bytes.length s (s.setMem (Memory.writeBytes s.params.font s.mem addr bytes)) := by
  intro a ha
  rw [byte_setMem_writeBytes]
  split
  · exact List.getD_eq_default _ _ (by omega)
  · rfl

theorem byte_setMem_writeBytes_getElem {k : Nat} (hk : k < bytes.length) :
    (s.setMem (Memory.writeBytes s.params.font s.mem addr bytes)).byte (addr + k) = bytes[k] := by
  rw [byte_setMem_writeBytes, if_pos (Nat.le_add_right addr k), Nat.add_sub_cancel_left]
  exact List.getD_eq_getElem _ _ hk

end BlockWrite

/-- A byte of memory depends on the parameters and the memory alone. -/
theorem byte_congr {s t : State} (hp : t.params = s.params) (hm : t.mem = s.mem) (a : Nat) :
    t.byte a = s.byte a := by
  simp only [State.byte, hp, hm]

/-! ### Read, Write, ReadWord and WriteWord (R51 to R54) -/

/-- Settles O27: MemRead of one byte, which passes its bound check exactly below 0x1000. -/
theorem readIsBoundChecked : Obligations.ReadIsBoundChecked := by
  refine fun s addr => ⟨fun h => ?_, fun h => ?_⟩
  · rw [memRead_eq, if_pos (by omega)]
    simp [State.bytes]
  · rw [memRead_eq, if_neg (by omega), Nat.max_eq_left h]

/-- Settles O28: MemWrite of one byte, in its three cases. -/
theorem writeChangesOneByteOrFaults : Obligations.WriteChangesOneByteOrFaults := by
  refine fun s addr b => ⟨fun h hp => ?_, fun h => ?_, fun hp h => ?_⟩
  · have hlen : addr + [b].length ≤ 0x1000 := Nat.succ_le_succ h
    exact ⟨_, memWrite_of_ok hlen hp, byte_setMem_writeBytes_getElem s addr [b] (k := 0) (by simp),
      memExcept_setMem_writeBytes s addr [b], onlyChanges_setMem s _⟩
  · have hlen : 0x1000 < addr + [b].length := Nat.lt_succ_of_le h
    rw [memWrite_bound (by simp) hlen (fun _ => by omega), Nat.max_eq_left h]
  · exact memWrite_protected (by simp) h hp

theorem highByte_toNat (w : Word) : (highByte w).toNat = w.toNat / 256 := by
  have := w.isLt
  rw [highByte, BitVec.extractLsb'_toNat, Nat.shiftRight_eq_div_pow]
  omega

theorem lowByte_toNat (w : Word) : (lowByte w).toNat = w.toNat % 256 := by
  rw [lowByte, BitVec.extractLsb'_toNat, Nat.shiftRight_zero]

/-- Settles O29: WriteWord is a block write of the high and the low byte, and ReadWord puts the two bytes it finds
there together again. -/
theorem wordRoundTrip : Obligations.WordRoundTrip := by
  intro s addr v h hp
  have hlen : addr + 2 ≤ 0x1000 := Nat.add_le_add_right h 2
  have hhi := byte_setMem_writeBytes_getElem s addr [highByte v, lowByte v] (k := 0) (by simp)
  have hlo := byte_setMem_writeBytes_getElem s addr [highByte v, lowByte v] (k := 1) (by simp)
  refine ⟨_, memWrite_of_ok hlen hp, ?_, ?_, ?_, memExcept_setMem_writeBytes s addr [_, _], onlyChanges_setMem s _⟩
  · rw [readWord_eq, if_pos hlen]
    exact congrArg Except.ok ((congrArg₂ bigEndian hhi hlo).trans (bigEndian_high_low v))
  · exact (congrArg BitVec.toNat hhi).trans (highByte_toNat v)
  · exact (congrArg BitVec.toNat hlo).trans (lowByte_toNat v)

/-! ### The stores (R61) -/

/-- `t` has the memory that the store instruction `i` leaves when it writes `bytes` from I on: all of its bytes, inside
memory and, under font_protect, above the font (R56). -/
structure Stored (i : Instr) (bytes : List Byte) (s t : State) : Prop where
  store : ∃ x, i = .ldB x ∨ i = .ldMemVx x
  length_eq : bytes.length = accessLength i
  end_le : s.ea + bytes.length ≤ 0x1000
  above_font : s.params.fontProtect = true → 0x50 ≤ s.ea
  mem_eq : t.mem = Memory.writeBytes s.params.font s.mem s.ea bytes

namespace Stored

variable {i : Instr} {bytes : List Byte} {s t : State}

theorem byte_eq_writeBytes (h : Stored i bytes s t) (hp : t.params = s.params) (a : Nat) :
    t.byte a = (s.setMem (Memory.writeBytes s.params.font s.mem s.ea bytes)).byte a :=
  byte_congr (s := s.setMem (Memory.writeBytes s.params.font s.mem s.ea bytes)) hp h.mem_eq a

theorem memExcept (h : Stored i bytes s t) (hp : t.params = s.params) : MemExcept s.ea bytes.length s t :=
  fun a ha => (h.byte_eq_writeBytes hp a).trans (memExcept_setMem_writeBytes s s.ea bytes a ha)

theorem byte_eq (h : Stored i bytes s t) (hp : t.params = s.params) {k : Nat} (hk : k < bytes.length) :
    t.byte (s.ea + k) = bytes[k] :=
  (h.byte_eq_writeBytes hp _).trans (byte_setMem_writeBytes_getElem s s.ea bytes hk)

theorem memWf (h : Stored i bytes s t) (hp : t.params = s.params) (hs : s.MemWf) : t.MemWf := by
  rw [State.MemWf, hp, h.mem_eq]
  exact writeBytes_wf _ bytes s.ea h.end_le hs

/-- A MemWrite of the store's bytes, at least one, that passes its checks. -/
theorem of_memWrite {u : State} (store : ∃ x, i = .ldB x ∨ i = .ldMemVx x)
    (length_eq : bytes.length = accessLength i) (h : memWrite s s.ea bytes = .ok u) (hc : complete u = .next t) :
    Stored i bytes s t := by
  have hpos : bytes.length ≠ 0 := by
    obtain ⟨x, rfl | rfl⟩ := store <;> rw [length_eq] <;> exact Nat.succ_ne_zero _
  obtain ⟨rfl, h0 | ⟨hb, hf⟩⟩ := memWrite_ok h
  · exact absurd h0 hpos
  · cases hc
    exact ⟨store, length_eq, hb, hf, rfl⟩

end Stored

/-- Everything LD B, Vx can do. -/
theorem exec_ldB_cases {x : Nibble} {s t : State} (h : exec (.ldB x) s = .next t) :
    (∃ k, t = haltWith k (fetchAddr s) s) ∨ Stored (.ldB x) (bcdDigits (s.getV x)) s t := by
  simp only [exec, execLdB] at h
  split at h
  · rename_i k _
    cases h
    exact .inl ⟨k, rfl⟩
  · rename_i u hu
    exact .inr (.of_memWrite ⟨x, .inl rfl⟩ rfl hu h)

/-- Everything LD [I], Vx can do. -/
theorem exec_ldMemVx_cases {x : Nibble} {s t : State} (h : exec (.ldMemVx x) s = .next t) :
    (∃ k, t = haltWith k (fetchAddr s) s) ∨ Stored (.ldMemVx x) (s.block x) s t := by
  simp only [exec, execLdMemVx] at h
  split at h
  · rename_i k _
    cases h
    exact .inl ⟨k, rfl⟩
  · rename_i u hu
    exact .inr (.of_memWrite ⟨x, .inr rfl⟩ (block_length s x) hu h)

/-! ### What Execute does to memory -/

theorem mem_eq_of_complete {s u t : State} (h : complete u = .next t) (hu : u.mem = s.mem) : t.mem = s.mem := by
  cases h
  exact hu

theorem mem_eq_of_raise {s t : State} {k : FaultKind} (h : raise k s = .next t) : t.mem = s.mem := by
  cases h
  rfl

theorem mem_eq_of_skipIf {s t : State} {c : Bool} (h : skipIf c s = .next t) : t.mem = s.mem := by
  cases c <;> exact mem_eq_of_complete h rfl

/-- Every instruction that is no store keeps memory, in the model's form and not only byte by byte. -/
theorem exec_keeps_mem {i : Instr} {s t : State} (hi : ∀ x, i ≠ .ldB x ∧ i ≠ .ldMemVx x)
    (h : exec i s = .next t) : t.mem = s.mem := by
  cases i with
  | ldB x => exact absurd rfl (hi x).1
  | ldMemVx x => exact absurd rfl (hi x).2
  | ret =>
    simp only [exec, execRet] at h
    rcases pop_cases s with ⟨_, e⟩ | ⟨n, hn, _, e⟩ <;> rw [e] at h
    · exact mem_eq_of_raise h
    · exact mem_eq_of_complete h rfl
  | call nnn =>
    simp only [exec, execCall] at h
    rcases push_cases s s.pc with ⟨hn, e⟩ | ⟨_, e⟩ <;> rw [e] at h
    · exact mem_eq_of_complete h rfl
    · exact mem_eq_of_raise h
  | seImm x kk => exact mem_eq_of_skipIf h
  | sneImm x kk => exact mem_eq_of_skipIf h
  | seReg x y => exact mem_eq_of_skipIf h
  | sneReg x y => exact mem_eq_of_skipIf h
  | drw x y n =>
    simp only [exec, execDrw] at h
    split at h
    · exact mem_eq_of_complete h rfl
    · split at h
      · exact mem_eq_of_raise h
      · exact mem_eq_of_complete h rfl
  | skp x =>
    simp only [exec, execSkp] at h
    split at h
    · exact mem_eq_of_raise h
    · exact mem_eq_of_skipIf h
  | sknp x =>
    simp only [exec, execSknp] at h
    split at h
    · exact mem_eq_of_raise h
    · exact mem_eq_of_skipIf h
  | ldVxK x =>
    simp only [exec, execLdVxK] at h
    split at h
    · exact mem_eq_of_complete h rfl
    · cases h
      rfl
  | ldF x =>
    simp only [exec, execLdF] at h
    split at h
    · exact mem_eq_of_raise h
    · exact mem_eq_of_complete h rfl
  | ldVxMem x =>
    simp only [exec, execLdVxMem] at h
    split at h
    · exact mem_eq_of_raise h
    · exact mem_eq_of_complete h rfl
  | _ => exact mem_eq_of_complete h rfl

/-- Execute keeps memory, or it is a store that wrote its bytes. -/
theorem exec_mem {i : Instr} {s t : State} (h : exec i s = .next t) :
    t.mem = s.mem ∨ ∃ bytes, Stored i bytes s t := by
  by_cases hi : ∃ x, i = .ldB x ∨ i = .ldMemVx x
  · obtain ⟨x, rfl | rfl⟩ := hi
    · obtain ⟨k, rfl⟩ | hst := exec_ldB_cases h
      · exact .inl rfl
      · exact .inr ⟨_, hst⟩
    · obtain ⟨k, rfl⟩ | hst := exec_ldMemVx_cases h
      · exact .inl rfl
      · exact .inr ⟨_, hst⟩
  · simp only [not_exists, not_or] at hi
    exact .inl (exec_keeps_mem hi h)

theorem params_not_mem_writtenParts (i : Instr) : .params ∉ .halt :: writtenParts i := by
  cases i <;> simp [writtenParts]

theorem exec_keeps_params {i : Instr} {s t : State} (h : exec i s = .next t) : t.params = s.params :=
  (exec_frame h).parts .params (params_not_mem_writtenParts i)

/-- Settles O33: the store wrote V0 and V1 at I and I + 1, I is as it was, and a fetch reads those two bytes. -/
theorem storedBytesAreFetched : Obligations.StoredBytesAreFetched := by
  intro s t x hx h hc
  have hp := exec_keeps_params h
  have hi : t.i = s.i := (exec_frame h).parts .i (by simp [writtenParts])
  obtain ⟨k, rfl⟩ | hst := exec_ldMemVx_cases h
  · simp [Completed, haltWith] at hc
  · have hlen := block_length s x
    have hle := hst.end_le
    have h0 : t.byte s.i.toNat = s.getV 0 :=
      (hst.byte_eq hp (k := 0) (by omega)).trans (block_getElem s x 0 _)
    have h1 : t.byte (s.i.toNat + 1) = s.getV 1 :=
      (hst.byte_eq hp (k := 1) (by omega)).trans (block_getElem s x 1 _)
    have hpc : s.i.toNat ≤ 0x0FFE := show s.ea ≤ 0x0FFE by omega
    rw [fetch_eq, State.setPc_pc, byte_setPc, byte_setPc, hi, if_pos hpc, h0, h1]

/-! ### What a Step does to memory -/

theorem finish_mem (u : State) : (finish u).mem = u.mem := by
  unfold finish
  split <;> rfl

theorem finish_params (u : State) : (finish u).params = u.params :=
  onlyChanges_finish u .params (by decide)

theorem step_keeps_params {s t : State} (h : step s = .next t) : t.params = s.params := by
  obtain ⟨_, ⟨k, _, rfl⟩ | ⟨w, e, _, _, rfl⟩ | ⟨w, i, u, _, _, hu, rfl⟩⟩ := step_cases h
  · rfl
  · rfl
  · exact (finish_params u).trans ((exec_keeps_params hu).trans (State.setPc_params s _))

/-- A Step keeps memory, or its instruction is a store that wrote its bytes; the advance before Execute and the tick
after it touch neither memory nor I. -/
theorem step_mem {s t : State} (h : step s = .next t) :
    t.mem = s.mem ∨ ∃ w i bytes, fetch s = .ok w ∧ decode w = .ok i ∧ Stored i bytes s t := by
  obtain ⟨_, ⟨k, _, rfl⟩ | ⟨w, e, _, _, rfl⟩ | ⟨w, i, u, hw, hi, hu, rfl⟩⟩ := step_cases h
  · exact .inl rfl
  · exact .inl rfl
  · obtain hm | ⟨bytes, hst⟩ := exec_mem hu
    · exact .inl ((finish_mem u).trans hm)
    · obtain ⟨hs, hlen, hle, hf, hm⟩ := hst
      exact .inr ⟨w, i, bytes, hw, hi, hs, hlen, hle, hf, (finish_mem u).trans hm⟩

/-- Settles O15: a block write inside memory keeps the canonical form. -/
theorem stepKeepsMemoryCanonical : Obligations.StepKeepsMemoryCanonical := by
  intro s t hs h
  have hp := step_keeps_params h
  obtain hm | ⟨_, _, _, _, _, hst⟩ := step_mem h
  · rw [State.MemWf, hp, hm]
    exact hs
  · exact hst.memWf hp hs

/-- Settles O19: under font_protect a store writes from 0x50 on, so every byte of the font lies below it. -/
theorem stepNeverWritesTheProtectedFont : Obligations.StepNeverWritesTheProtectedFont := by
  intro s t hfp h a ha
  have hp := step_keeps_params h
  obtain hm | ⟨_, _, _, _, _, hst⟩ := step_mem h
  · exact byte_congr hp hm a
  · have hf := hst.above_font hfp
    exact hst.memExcept hp a (.inl (by omega))

/-- Settles O23: a changed byte is one that a store wrote, so it lies among the store's addresses. -/
theorem stepWritesMemoryOnlyByStores : Obligations.StepWritesMemoryOnlyByStores := by
  intro s t a h hne
  have hp := step_keeps_params h
  obtain hm | ⟨w, i, bytes, hw, hi, hst⟩ := step_mem h
  · exact absurd (byte_congr hp hm a) hne
  · have hrange : s.ea ≤ a ∧ a < s.ea + bytes.length := by
      by_contra hout
      exact hne (hst.memExcept hp a (by omega))
    have hle := hst.end_le
    have hlt : a < s.ea + accessLength i := hst.length_eq ▸ hrange.2
    obtain ⟨x, rfl | rfl⟩ := hst.store
    · exact ⟨w, _, x, hw, hi, hrange.1, by omega, .inl ⟨rfl, hlt⟩⟩
    · exact ⟨w, _, x, hw, hi, hrange.1, by omega, .inr ⟨rfl, hlt⟩⟩

end Sys2Proof.Machine
end

section
/-! PROOFS. The statements about the encoding (30_encoding.md R70 to R85). `decode_ends` says once what a decode can
answer; the second round trip, the opcode table and the Unknown families follow from it. -/

namespace Sys2Proof

open Laws.TableForm (nibble_and_ones byte_and_ones mask_encodeA mask_encodeXK mask_encodeXF mask_encodeXY
  mask_encodeXYN)

/-! ### A word from its fields (R71) -/

theorem encodeA_fields (w : Word) : encodeA (fieldOp w) (fieldNnn w) = w :=
  append_extract (a := 4) (b := 12) w

theorem encodeXK_fields (w : Word) : encodeXK (fieldOp w) (fieldX w) (fieldKk w) = w := by
  have h : (fieldX w ++ fieldKk w : BitVec 12) = fieldNnn w := by
    have := append_extract (a := 4) (b := 8) (fieldNnn w)
    simpa [fieldNnn, fieldX, fieldKk] using this
  exact (congrArg (fieldOp w ++ ·) h).trans (encodeA_fields w)

theorem encodeXY_fields (w : Word) : encodeXY (fieldOp w) (fieldX w) (fieldY w) (fieldN w) = w := by
  have h : (fieldY w ++ fieldN w : BitVec 8) = fieldKk w := by
    have := append_extract (a := 4) (b := 4) (fieldKk w)
    simpa [fieldKk, fieldY, fieldN] using this
  exact (congrArg (encodeXK (fieldOp w) (fieldX w)) h).trans (encodeXK_fields w)

section FixedFields
variable {w : Word} {op n : Nibble} {kk : Byte} {nnn : Addr}

theorem encodeA_of_fields (hop : fieldOp w = op) (hnnn : fieldNnn w = nnn) : encodeA op nnn = w := by
  rw [← hop, ← hnnn, encodeA_fields]

theorem encodeXK_of_fields (hop : fieldOp w = op) (hkk : fieldKk w = kk) : encodeXK op (fieldX w) kk = w := by
  rw [← hop, ← hkk, encodeXK_fields]

theorem encodeXY_of_fields (hop : fieldOp w = op) (hn : fieldN w = n) :
    encodeXY op (fieldX w) (fieldY w) n = w := by
  rw [← hop, ← hn, encodeXY_fields]

end FixedFields

/-! ### The two round trips (R80) -/

/-- Settles O1, format by format: the decoder finds in each field what the encoder put there. -/
theorem decodeInvertsEncode : Obligations.DecodeInvertsEncode := by
  intro i
  cases i with
  | cls | ret => rfl
  | jp nnn | call nnn | ldI nnn | jpV0 nnn =>
    simp only [encode, decode, fieldOp_encodeA, fieldNnn_encodeA]
  | seImm x kk | sneImm x kk | ldImm x kk | addImm x kk | rnd x kk | skp x | sknp x | ldVxDt x | ldVxK x | ldDtVx x
  | ldStVx x | addI x | ldF x | ldB x | ldMemVx x | ldVxMem x =>
    simp only [encode, decode, fieldOp_encodeXK, fieldX_encodeXK, fieldKk_encodeXK]
  | seReg x y | sneReg x y | ldReg x y | or x y | and x y | xor x y | addReg x y | sub x y | shr x y | subn x y
  | shl x y | drw x y n =>
    simp only [encode, decode, fieldOp_encodeXY, fieldX_encodeXY, fieldY_encodeXY, fieldN_encodeXY]

/-- The families of R81 and R82. -/
inductive UnknownWord (w : Word) : Prop where
  | family0 (hop : fieldOp w = 0x0) (hcls : w ≠ 0x00E0) (hret : w ≠ 0x00EE)
  | family5 (hop : fieldOp w = 0x5) (hn : fieldN w ≠ 0)
  | family8 (hop : fieldOp w = 0x8) (hn : 0x8 ≤ (fieldN w).toNat) (hshl : fieldN w ≠ 0xE)
  | family9 (hop : fieldOp w = 0x9) (hn : fieldN w ≠ 0)
  | familyE (hop : fieldOp w = 0xE) (hkk : fieldKk w ∉ [0x9E#8, 0xA1#8])
  | familyF (hop : fieldOp w = 0xF)
      (hkk : fieldKk w ∉ [0x07#8, 0x0A#8, 0x15#8, 0x18#8, 0x1E#8, 0x29#8, 0x33#8, 0x55#8, 0x65#8])

/-- What a decode of `w` answers: an instruction whose word is `w`, or, for a word of the families, Unknown with the
raw word. -/
inductive DecodeEnds (w : Word) : Except DecodeError Instr → Prop where
  | instr (i : Instr) (h : encode i = w) : DecodeEnds w (.ok i)
  | unknown (h : UnknownWord w) : DecodeEnds w (.error (.unknownOpcode w))

/-- The low nibbles of family 8 that name no function (R81). -/
theorem eight_le_of_not_mem {n : Nibble}
    (h : n ∉ [0x0#4, 0x1#4, 0x2#4, 0x3#4, 0x4#4, 0x5#4, 0x6#4, 0x7#4, 0xE#4]) : 0x8 ≤ n.toNat := by
  revert n
  decide

/-- Everything a decode can answer, along the branches of the decoder. -/
theorem decode_ends (w : Word) : DecodeEnds w (decode w) := by
  unfold decode
  split
  case h_1 hop =>
    split
    case h_3 hcls hret =>
      exact .unknown (.family0 hop (fun e => hcls (congrArg fieldNnn e)) (fun e => hret (congrArg fieldNnn e)))
    case h_1 hnnn => exact .instr .cls (encodeA_of_fields hop hnnn)
    case h_2 hnnn => exact .instr .ret (encodeA_of_fields hop hnnn)
  case h_2 | h_3 | h_11 | h_12 => exact .instr _ (encodeA_of_fields ‹_› rfl)
  case h_4 | h_5 | h_7 | h_8 | h_13 => exact .instr _ (encodeXK_of_fields ‹_› rfl)
  case h_6 hop =>
    split
    case h_1 hn => exact .instr _ (encodeXY_of_fields hop hn)
    case h_2 hn => exact .unknown (.family5 hop hn)
  case h_9 hop =>
    split
    case h_10 hshl => exact .unknown (.family8 hop (eight_le_of_not_mem (by simp_all)) hshl)
    all_goals exact .instr _ (encodeXY_of_fields hop ‹_›)
  case h_10 hop =>
    split
    case h_1 hn => exact .instr _ (encodeXY_of_fields hop hn)
    case h_2 hn => exact .unknown (.family9 hop hn)
  case h_14 hop => exact .instr _ (encodeXY_of_fields hop rfl)
  case h_15 hop =>
    split
    case h_3 => exact .unknown (.familyE hop (by simp_all))
    all_goals exact .instr _ (encodeXK_of_fields hop ‹_›)
  case h_16 hop =>
    split
    case h_10 => exact .unknown (.familyF hop (by simp_all))
    all_goals exact .instr _ (encodeXK_of_fields hop ‹_›)
  case h_17 =>
    -- every value of the nibble has a branch of its own
    exfalso
    generalize fieldOp w = op at *
    revert op
    decide

/-- Settles O2: of what a decode can answer, only the instruction whose word is `w` is no error. -/
theorem encodeInvertsDecode : Obligations.EncodeInvertsDecode := by
  intro w i h
  have hends := decode_ends w
  rw [h] at hends
  cases hends
  assumption

/-! ### The opcode table (R76) -/

/-- A matching row matches field by field. -/
theorem field_of_rowMatches {r : OpcodeRow} {w : Word} (h : rowMatches r w = true) (lo len : Nat) :
    w.extractLsb' lo len &&& r.mask.extractLsb' lo len = r.pattern.extractLsb' lo len := by
  rw [← BitVec.extractLsb'_and, beq_iff_eq.mp h]

section RowMatches
variable {r : OpcodeRow} {w : Word} (h : rowMatches r w = true)
include h

theorem fieldOp_of_rowMatches {op : Nibble} (hop : fieldOp w = op) :
    op &&& fieldOp r.mask = fieldOp r.pattern := by
  rw [← hop]
  exact field_of_rowMatches h 12 4

theorem fieldN_of_rowMatches (hm : fieldN r.mask = 0xF#4) : fieldN w = fieldN r.pattern := by
  have hn : fieldN w &&& fieldN r.mask = fieldN r.pattern := field_of_rowMatches h 0 4
  rwa [hm, nibble_and_ones] at hn

theorem fieldKk_of_rowMatches (hm : fieldKk r.mask = 0xFF#8) : fieldKk w = fieldKk r.pattern := by
  have hkk : fieldKk w &&& fieldKk r.mask = fieldKk r.pattern := field_of_rowMatches h 0 8
  rwa [hm, byte_and_ones] at hkk

theorem eq_pattern_of_rowMatches (hm : r.mask = 0xFFFF#16) : w = r.pattern := by
  have hw : w &&& r.mask = r.pattern := beq_iff_eq.mp h
  rwa [hm, show w &&& 0xFFFF#16 = w from BitVec.and_allOnes] at hw

end RowMatches

/-! What the table says of the rows whose `op` is that of a family. -/

theorem rows_family0 : ∀ r ∈ opcodeTable, 0x0#4 &&& fieldOp r.mask = fieldOp r.pattern →
    r.mask = 0xFFFF#16 ∧ (r.pattern = 0x00E0 ∨ r.pattern = 0x00EE) := by decide

theorem rows_family5 : ∀ r ∈ opcodeTable, 0x5#4 &&& fieldOp r.mask = fieldOp r.pattern →
    fieldN r.mask = 0xF#4 ∧ fieldN r.pattern = 0 := by decide

theorem rows_family8 : ∀ r ∈ opcodeTable, 0x8#4 &&& fieldOp r.mask = fieldOp r.pattern →
    fieldN r.mask = 0xF#4 ∧ (0x8 ≤ (fieldN r.pattern).toNat → fieldN r.pattern = 0xE) := by decide

theorem rows_family9 : ∀ r ∈ opcodeTable, 0x9#4 &&& fieldOp r.mask = fieldOp r.pattern →
    fieldN r.mask = 0xF#4 ∧ fieldN r.pattern = 0 := by decide

theorem rows_familyE : ∀ r ∈ opcodeTable, 0xE#4 &&& fieldOp r.mask = fieldOp r.pattern →
    fieldKk r.mask = 0xFF#8 ∧ fieldKk r.pattern ∈ [0x9E#8, 0xA1#8] := by decide

theorem rows_familyF : ∀ r ∈ opcodeTable, 0xF#4 &&& fieldOp r.mask = fieldOp r.pattern →
    fieldKk r.mask = 0xFF#8 ∧
      fieldKk r.pattern ∈ [0x07#8, 0x0A#8, 0x15#8, 0x18#8, 0x1E#8, 0x29#8, 0x33#8, 0x55#8, 0x65#8] := by decide

theorem rowMatches_eq_false_of_unknownWord {r : OpcodeRow} {w : Word} (hr : r ∈ opcodeTable) (hu : UnknownWord w) :
    rowMatches r w = false := by
  rw [Bool.eq_false_iff]
  intro h
  cases hu with
  | family0 hop hcls hret =>
    obtain ⟨hm, hp⟩ := rows_family0 r hr (fieldOp_of_rowMatches h hop)
    rw [← eq_pattern_of_rowMatches h hm] at hp
    exact hp.elim hcls hret
  | family5 hop hn =>
    obtain ⟨hm, hp⟩ := rows_family5 r hr (fieldOp_of_rowMatches h hop)
    exact hn ((fieldN_of_rowMatches h hm).trans hp)
  | family8 hop hn hshl =>
    obtain ⟨hm, hp⟩ := rows_family8 r hr (fieldOp_of_rowMatches h hop)
    rw [← fieldN_of_rowMatches h hm] at hp
    exact hshl (hp hn)
  | family9 hop hn =>
    obtain ⟨hm, hp⟩ := rows_family9 r hr (fieldOp_of_rowMatches h hop)
    exact hn ((fieldN_of_rowMatches h hm).trans hp)
  | familyE hop hkk =>
    obtain ⟨hm, hp⟩ := rows_familyE r hr (fieldOp_of_rowMatches h hop)
    exact hkk (fieldKk_of_rowMatches h hm ▸ hp)
  | familyF hop hkk =>
    obtain ⟨hm, hp⟩ := rows_familyF r hr (fieldOp_of_rowMatches h hop)
    exact hkk (fieldKk_of_rowMatches h hm ▸ hp)

theorem rowMatches_rowOf_encode (i : Instr) : rowMatches (rowOf i) (encode i) = true := by
  rw [rowMatches, beq_iff_eq]
  cases i with
  | cls | ret => rfl
  | jp nnn | call nnn | ldI nnn | jpV0 nnn => exact mask_encodeA _ _
  | seImm x kk | sneImm x kk | ldImm x kk | addImm x kk | rnd x kk => exact mask_encodeXK _ _ _
  | seReg x y | sneReg x y | ldReg x y | or x y | and x y | xor x y | addReg x y | sub x y | shr x y | subn x y
  | shl x y => exact mask_encodeXY _ _ _ _
  | drw x y n => exact mask_encodeXYN _ _ _ _
  | skp x | sknp x | ldVxDt x | ldVxK x | ldDtVx x | ldStVx x | addI x | ldF x | ldB x | ldMemVx x | ldVxMem x =>
    exact mask_encodeXF _ _ _

theorem rowOf_mem (i : Instr) : rowOf i ∈ opcodeTable := by
  have h : rowIndex i < opcodeTable.length := by cases i <;> simp [rowIndex, opcodeTable]
  rw [rowOf, List.getD_eq_getElem _ _ h]
  exact List.getElem_mem h

theorem wordInTable_encode (i : Instr) : wordInTable (encode i) = true :=
  List.any_eq_true.mpr ⟨rowOf i, rowOf_mem i, rowMatches_rowOf_encode i⟩

theorem wordInTable_eq_false_of_unknownWord {w : Word} (hu : UnknownWord w) : wordInTable w = false :=
  List.any_eq_false.mpr fun _ hr => Bool.eq_false_iff.mp (rowMatches_eq_false_of_unknownWord hr hu)

/-- A word with a row decodes to an instruction that encodes to it. -/
theorem decode_of_wordInTable {w : Word} (h : wordInTable w = true) : ∃ i, decode w = .ok i ∧ encode i = w := by
  have hends := decode_ends w
  generalize decode w = r at hends
  cases hends with
  | instr i hi => exact ⟨i, rfl, hi⟩
  | unknown hu => simp [wordInTable_eq_false_of_unknownWord hu] at h

/-- A word with no row is Unknown. -/
theorem decode_of_not_wordInTable {w : Word} (h : wordInTable w = false) :
    decode w = .error (.unknownOpcode w) ∧ UnknownWord w := by
  have hends := decode_ends w
  generalize decode w = r at hends
  cases hends with
  | instr i hi => simp [← hi, wordInTable_encode] at h
  | unknown hu => exact ⟨rfl, hu⟩

/-- No two rows agree where both masks look. -/
theorem rows_disjoint : opcodeTable.Pairwise fun r q => r.pattern &&& q.mask ≠ q.pattern &&& r.mask := by
  decide

theorem length_filter_rowMatches_le_one (w : Word) :
    (opcodeTable.filter fun r => rowMatches r w).length ≤ 1 := by
  have hdisj := rows_disjoint.filter fun r => rowMatches r w
  have hall : ∀ r ∈ opcodeTable.filter fun r => rowMatches r w, w &&& r.mask = r.pattern := fun r hr =>
    beq_iff_eq.mp (List.mem_filter.mp hr).2
  generalize opcodeTable.filter (fun r => rowMatches r w) = rows at hdisj hall ⊢
  match rows with
  | [] | [_] => simp
  | r :: q :: rows =>
    have hne : r.pattern &&& q.mask ≠ q.pattern &&& r.mask := List.rel_of_pairwise_cons hdisj (by simp)
    rw [← hall r (by simp), ← hall q (by simp), BitVec.and_assoc, BitVec.and_assoc, BitVec.and_comm r.mask] at hne
    exact absurd rfl hne

/-- Settles O3: the rows are disjoint, the word of an instruction matches its row, and a word of the Unknown families
matches none. -/
theorem decodeFollowsTheOpcodeTable : Obligations.DecodeFollowsTheOpcodeTable := by
  refine fun w => ⟨length_filter_rowMatches_le_one w, ⟨?_, fun h => ?_⟩, fun i h => ?_, fun h => ?_⟩
  · rintro ⟨i, h⟩
    exact encodeInvertsDecode w i h ▸ wordInTable_encode i
  · exact (decode_of_wordInTable h).imp fun _ hi => hi.1
  · exact encodeInvertsDecode w i h ▸ rowMatches_rowOf_encode i
  · exact (decode_of_not_wordInTable h).1

theorem unknownWord_iff_decode_error (w : Word) : UnknownWord w ↔ ∃ e, decode w = .error e := by
  constructor
  · intro hu
    exact ⟨_, (decode_of_not_wordInTable (wordInTable_eq_false_of_unknownWord hu)).1⟩
  · rintro ⟨e, h⟩
    have hends := decode_ends w
    rw [h] at hends
    cases hends
    assumption

/-- Settles O4: `UnknownWord` is the statement's list of families. -/
theorem unknownWordsByFamily : Obligations.UnknownWordsByFamily := by
  refine fun w => (unknownWord_iff_decode_error w).symm.trans ⟨?_, ?_⟩
  · rintro (_ | _ | _ | _ | _ | _) <;> tauto
  · rintro (⟨hop, hcls, hret⟩ | ⟨hop, hn⟩ | ⟨hop, hn, hshl⟩ | ⟨hop, hn⟩ | ⟨hop, hkk⟩ | ⟨hop, hkk⟩)
    · exact .family0 hop hcls hret
    · exact .family5 hop hn
    · exact .family8 hop hn hshl
    · exact .family9 hop hn
    · exact .familyE hop hkk
    · exact .familyF hop hkk

/-! ### Assembling (R84, R85) -/

theorem toNat_append_eq_add {a b : Nat} (p : BitVec a) (q : BitVec b) :
    (p ++ q).toNat = p.toNat * 2 ^ b + q.toNat := by
  rw [BitVec.toNat_append, ← Nat.shiftLeft_add_eq_or_of_lt q.isLt, Nat.shiftLeft_eq]

/-! The number of a word: its row's pattern and its operand bits, format by format (R72). -/

theorem toNat_encodeA (op : Nibble) (nnn : Addr) : (encodeA op nnn).toNat = op.toNat * 0x1000 + nnn.toNat :=
  toNat_append_eq_add op nnn

theorem toNat_encodeXK (op x : Nibble) (kk : Byte) :
    (encodeXK op x kk).toNat = op.toNat * 0x1000 + (x.toNat * 0x100 + kk.toNat) := by
  rw [encodeXK, toNat_append_eq_add, toNat_append_eq_add]
  rfl

theorem toNat_encodeXF (op x : Nibble) (kk : Byte) :
    (encodeXK op x kk).toNat = (op.toNat * 0x1000 + kk.toNat) + x.toNat * 0x100 := by
  rw [toNat_encodeXK]
  omega

theorem toNat_encodeXYN (op x y n : Nibble) :
    (encodeXY op x y n).toNat = op.toNat * 0x1000 + (x.toNat * 0x100 + y.toNat * 0x10 + n.toNat) := by
  rw [encodeXY, toNat_append_eq_add, toNat_append_eq_add, toNat_append_eq_add, ← Nat.add_assoc (x.toNat * _)]
  rfl

theorem toNat_encodeXY (op x y n : Nibble) :
    (encodeXY op x y n).toNat = (op.toNat * 0x1000 + n.toNat) + (x.toNat * 0x100 + y.toNat * 0x10) := by
  rw [toNat_encodeXYN]
  omega

theorem toNat_encode (i : Instr) :
    (encode i).toNat = (rowOf i).pattern.toNat + operandBits i.operandValues i.format := by
  cases i with
  | cls | ret => rfl
  | jp nnn | call nnn | ldI nnn | jpV0 nnn => exact toNat_encodeA _ _
  | seImm x kk | sneImm x kk | ldImm x kk | addImm x kk | rnd x kk => exact toNat_encodeXK _ _ _
  | seReg x y | sneReg x y | ldReg x y | or x y | and x y | xor x y | addReg x y | sub x y | shr x y | subn x y
  | shl x y => exact toNat_encodeXY _ _ _ _
  | drw x y n => exact toNat_encodeXYN _ _ _ _
  | skp x | sknp x | ldVxDt x | ldVxK x | ldDtVx x | ldStVx x | addI x | ldF x | ldB x | ldMemVx x | ldVxMem x =>
    exact toNat_encodeXF _ _ _

theorem format_rowOf (i : Instr) : (rowOf i).format = i.format := by
  cases i <;> rfl

/-- Settles O6: the operands of an instruction always fit, and a word is its row's pattern and its operand bits. -/
theorem assembleGivesTheOneWord : Obligations.AssembleGivesTheOneWord := by
  refine ⟨fun i => ?_, fun r o h => ?_⟩
  · have hwf : i.operandValues.wellFormed i.format = true := wellFormed_all i
    rw [assemble, format_rowOf, if_pos hwf, ← toNat_encode, BitVec.ofNat_toNat, BitVec.setWidth_eq]
  · rw [assemble, h]
    rfl

/-! ### Words written out -/

/-- Settles O5, by running the decoder on the words. -/
theorem decodeReadsTheSpecsWords : Obligations.DecodeReadsTheSpecsWords := by
  unfold Obligations.DecodeReadsTheSpecsWords
  decide

end Sys2Proof
end

section
/-! PROOFS. The statements about the Step (30_encoding.md R73 to R79) and about how Execute ends (R78,
60_exceptions.md R220). -/

namespace Sys2Proof.Machine

/-! ### The Step (R73 to R79) -/

section Step
variable {s t : State} {w : Word}

theorem step_of_fetch_error {k : FaultKind} (hh : s.halt = none) (hf : fetch s = .error k) :
    step s = .next (haltWith k s.pc s) := by
  simp only [step, hh, hf]

theorem step_of_decode_error {e : DecodeError} (hh : s.halt = none) (hf : fetch s = .ok w)
    (hd : decode w = .error e) : step s = .next (haltWith (.unknownOpcode w) s.pc (advance s)) := by
  simp only [step, hh, hf, hd, raise, fetchAddr_advance]

theorem step_of_exec {i : Instr} (hh : s.halt = none) (hf : fetch s = .ok w) (hd : decode w = .ok i)
    (he : exec i (advance s) = .next t) : step s = .next (finish t) := by
  simp only [step, hh, hf, hd, he]

end Step

theorem fetch_ok {s : State} (h : s.pc.toNat ≤ 0x0FFE) :
    fetch s = .ok (bigEndian (s.byte s.pc.toNat) (s.byte (s.pc.toNat + 1))) := by
  rw [fetch_eq, if_pos h]

/-- Settles O7: the fetch reads the two bytes, and the Step goes on from there. -/
theorem stepRunsTheDecodedInstruction : Obligations.StepRunsTheDecodedInstruction :=
  fun _ _ _ hh hpc hd he => step_of_exec hh (fetch_ok hpc) hd he

/-- Settles O8: the lowest address out of bounds is PC itself unless only the second byte is. -/
theorem fetchReadsTwoBytesOrFaults : Obligations.FetchReadsTwoBytesOrFaults := by
  refine fun s => ⟨fun h => fetch_ok (Nat.le_of_succ_le_succ h), fun hh h => ?_⟩
  have hf : fetch s = .error (.outOfBoundsAddress (if s.pc.toNat = 0x0FFF then 0x1000 else s.pc.toNat)) := by
    rw [fetch_eq, if_neg (by omega)]
    congr 2
    split <;> omega
  exact ⟨_, _, step_of_fetch_error hh hf, rfl, rfl, rfl, onlyChanges_haltWith s _ _⟩

/-- Settles O9: a word with no row fails to decode. -/
theorem unknownOpcodeTakesItsFault : Obligations.UnknownOpcodeTakesItsFault := fun s _ hh hf hw =>
  ⟨_, step_of_decode_error hh hf (decode_of_not_wordInTable hw).1, rfl, rfl, rfl,
    (onlyChanges_setPc s _).trans (onlyChanges_haltWith (advance s) _ _)⟩

/-- Settles O13: `finish` is the tick after Done and nothing after any other end. -/
theorem tickFollowsACompletedInstruction : Obligations.TickFollowsACompletedInstruction := by
  refine fun t => ⟨fun h => ?_, finish_waiting t, finish_faulted t⟩
  rw [finish_executed t false h]
  exact ⟨tickDown_toNat _, tickDown_toNat _, congrArg (fun b => some (Reply.executed b)) (beq_one_eq_decide_toNat _),
    onlyChanges_tick t⟩

/-! ### How Execute ends (R78, R220) -/

/-- The three ways in which `i`, run on `s`, may answer `r`. -/
def EndsAsNamed (i : Instr) (s : State) (r : Result) : Prop :=
  ∃ t, r = .next t ∧
    ((Completed t ∧ t.halt = s.halt) ∨ (t.reply = some .waiting ∧ t.halt = s.halt ∧ ∃ x, i = .ldVxK x) ∨
     ∃ k, TookFault k s t ∧ mayRaise i s k)

section Ends
variable {i : Instr} {s : State}

theorem endsAsNamed_complete {u : State} (h : u.halt = s.halt) : EndsAsNamed i s (complete u) :=
  ⟨_, rfl, .inl ⟨rfl, h⟩⟩

theorem endsAsNamed_raise {k : FaultKind} (h : mayRaise i s k) : EndsAsNamed i s (raise k s) :=
  ⟨_, rfl, .inr (.inr ⟨k, ⟨rfl, rfl, onlyChanges_haltWith s k _⟩, h⟩)⟩

theorem endsAsNamed_skipIf {c : Bool} : EndsAsNamed i s (skipIf c s) := by
  cases c <;> exact endsAsNamed_complete rfl

end Ends

/-- Everything MemWrite of at least one byte can do (20_memory.md R56, 60_exceptions.md R225). -/
theorem memWrite_cases (s : State) (addr : Nat) {bytes : List Byte} (h0 : 0 < bytes.length) :
    (∃ m, memWrite s addr bytes = .ok (s.setMem m)) ∨
    (s.params.fontProtect = true ∧ addr ≤ 0x4F ∧ memWrite s addr bytes = .error (.protectedWrite addr)) ∨
    (0x1000 < addr + bytes.length ∧ memWrite s addr bytes = .error (.outOfBoundsAddress (max addr 0x1000))) := by
  by_cases hfont : s.params.fontProtect = true ∧ addr ≤ 0x4F
  · exact .inr (.inl ⟨hfont.1, hfont.2, memWrite_protected h0 hfont.2 hfont.1⟩)
  · have habove : s.params.fontProtect = true → 0x50 ≤ addr := fun hp =>
      Nat.lt_of_not_le fun hle => hfont ⟨hp, hle⟩
    by_cases hend : addr + bytes.length ≤ 0x1000
    · exact .inl ⟨_, memWrite_of_ok hend habove⟩
    · exact .inr (.inr ⟨by omega, memWrite_bound h0 (by omega) habove⟩)

/-! The faults of the operations are those of R220, raised by the instructions that perform them. -/

section MayRaise
variable {i : Instr} {s : State} {k : FaultKind}

/-- An access that runs past the end of memory first leaves it at I, or at 0x1000 where I is inside. -/
theorem lowestOffending_bound (h0 : 0 < accessLength i) (h : 0x1000 < s.ea + accessLength i) :
    LowestOffending i s (0x1000 ≤ ·) (max s.ea 0x1000) :=
  ⟨by omega, by omega, by omega, fun b hb hlt => by omega⟩

/-- An access that begins in the font is at its lowest address there. -/
theorem lowestOffending_font (h0 : 0 < accessLength i) (h : s.ea ≤ 0x4F) :
    LowestOffending i s (· ≤ 0x004F) s.ea :=
  ⟨le_rfl, by omega, h, fun b hb hlt => by omega⟩

theorem mayRaise_of_memRead (h : memRead s s.ea (accessLength i) = .error k) : mayRaise i s k := by
  rw [memRead_eq] at h
  split at h
  · cases h
  · cases h
    exact lowestOffending_bound (by omega) (by omega)

theorem mayRaise_of_memWrite {bytes : List Byte} (store : ∃ x, i = .ldB x ∨ i = .ldMemVx x)
    (length_eq : bytes.length = accessLength i) (h : memWrite s s.ea bytes = .error k) : mayRaise i s k := by
  have hpos : 0 < accessLength i := by
    obtain ⟨x, rfl | rfl⟩ := store <;> exact Nat.succ_pos _
  obtain ⟨m, e⟩ | ⟨hp, ha, e⟩ | ⟨hend, e⟩ := memWrite_cases s s.ea (length_eq ▸ hpos) <;> rw [e] at h <;> cases h
  · exact ⟨hp, store, lowestOffending_font hpos ha⟩
  · exact lowestOffending_bound hpos (length_eq ▸ hend)

theorem mayRaise_of_hexDigit {x : Nibble} (hi : i = .skp x ∨ i = .sknp x ∨ i = .ldF x)
    (h : hexDigit s.params.hexDigitPolicy (s.getV x) = .error k) : mayRaise i s k := by
  obtain e | ⟨hp, hv, e⟩ := hexDigit_cases s.params.hexDigitPolicy (s.getV x) <;> rw [e] at h <;> cases h
  exact ⟨hp, hv, x, rfl, hi⟩

end MayRaise

/-- Every instruction answers in one of the three ways. -/
theorem exec_endsAsNamed (i : Instr) (s : State) : EndsAsNamed i s (exec i s) := by
  cases i with
  | ret =>
    simp only [exec, execRet]
    obtain ⟨hsp, e⟩ | ⟨n, hn, _, e⟩ := pop_cases s <;> rw [e]
    · exact endsAsNamed_raise ⟨congrArg Fin.val hsp, rfl⟩
    · exact endsAsNamed_complete rfl
  | call nnn =>
    simp only [exec, execCall]
    obtain ⟨hn, e⟩ | ⟨hsp, e⟩ := push_cases s s.pc <;> rw [e]
    · exact endsAsNamed_complete rfl
    · exact endsAsNamed_raise ⟨hsp, nnn, rfl⟩
  | seImm | sneImm | seReg | sneReg => exact endsAsNamed_skipIf
  | drw x y n =>
    simp only [exec, execDrw]
    split
    · exact endsAsNamed_complete rfl
    · split
      case h_1 e => exact endsAsNamed_raise (mayRaise_of_memRead e)
      case h_2 => exact endsAsNamed_complete rfl
  | skp x =>
    simp only [exec, execSkp]
    split
    case h_1 e => exact endsAsNamed_raise (mayRaise_of_hexDigit (.inl rfl) e)
    case h_2 => exact endsAsNamed_skipIf
  | sknp x =>
    simp only [exec, execSknp]
    split
    case h_1 e => exact endsAsNamed_raise (mayRaise_of_hexDigit (.inr (.inl rfl)) e)
    case h_2 => exact endsAsNamed_skipIf
  | ldVxK x =>
    simp only [exec, execLdVxK]
    split
    · exact endsAsNamed_complete rfl
    · exact ⟨_, rfl, .inr (.inl ⟨rfl, rfl, x, rfl⟩)⟩
  | ldF x =>
    simp only [exec, execLdF]
    split
    case h_1 e => exact endsAsNamed_raise (mayRaise_of_hexDigit (.inr (.inr rfl)) e)
    case h_2 => exact endsAsNamed_complete rfl
  | ldB x =>
    simp only [exec, execLdB]
    split
    case h_1 e => exact endsAsNamed_raise (mayRaise_of_memWrite ⟨x, .inl rfl⟩ rfl e)
    case h_2 e =>
      obtain ⟨rfl, _⟩ := memWrite_ok e
      exact endsAsNamed_complete rfl
  | ldMemVx x =>
    simp only [exec, execLdMemVx]
    split
    case h_1 e => exact endsAsNamed_raise (mayRaise_of_memWrite ⟨x, .inr rfl⟩ (block_length s x) e)
    case h_2 e =>
      obtain ⟨rfl, _⟩ := memWrite_ok e
      exact endsAsNamed_complete rfl
  | ldVxMem x =>
    simp only [exec, execLdVxMem]
    split
    case h_1 e => exact endsAsNamed_raise (mayRaise_of_memRead e)
    case h_2 => exact endsAsNamed_complete rfl
  | _ => exact endsAsNamed_complete rfl

/-- Settles O12: `exec_endsAsNamed` for every instruction and state. -/
theorem onlyTheNamedInstructionsStop : Obligations.OnlyTheNamedInstructionsStop :=
  exec_endsAsNamed

end Sys2Proof.Machine
end

section
/-! PROOFS. The statements about control transfer (40_control.md): what CALL and RET do to the stack and PC on both
sides of their faults, and where the jumps and skips leave PC. -/

namespace Sys2Proof.Machine

/-! ### How Execute ends: the frame of Done and the effect of a fault (30_encoding.md R78, 60_exceptions.md R221) -/

/-- The reply of a completed instruction adds nothing to its frame. -/
theorem OnlyChanges.setReply {ps : List Part} {s u : State} (h : OnlyChanges ps s u) (r : Reply) :
    OnlyChanges ps s (u.setReply r) :=
  (h.trans (onlyChanges_setReply u r)).mono (by simp)

theorem raise_tookFault (k : FaultKind) (s : State) : ∃ t, raise k s = .next t ∧ TookFault k s t :=
  ⟨_, rfl, rfl, rfl, onlyChanges_haltWith s k _⟩

theorem TookFault.not_completed {k : FaultKind} {s t : State} (h : TookFault k s t) : ¬ Completed t := by
  obtain ⟨_, hreply, _⟩ := h
  simp [Completed, hreply]

/-! ### CALL and RET (R100, R101, R103, R105) -/

section Stack
variable (s : State)

/-- PC and the stack together, as CALL and RET write them. -/
theorem onlyChanges_setStack_setPc (k : Vector Word 16) (n : Fin 17) (w : Word) :
    OnlyChanges [.pc, .stack] s ((s.setStack k n).setPc w) :=
  ((onlyChanges_setStack s k n).trans (onlyChanges_setPc _ w)).mono (by simp)

theorem exec_call_of_lt (nnn : Addr) (h : s.sp.val < 16) :
    exec (.call nnn) s = complete
      ((s.setStack (s.stack.set s.sp.val s.pc h) ⟨s.sp.val + 1, Nat.succ_lt_succ h⟩).setPc (zextAddr nnn)) := by
  simp only [exec, execCall, push_of_lt s s.pc h]

theorem exec_call_of_full (nnn : Addr) (h : s.sp.val = 16) : exec (.call nnn) s = raise .stackOverflow s := by
  simp only [exec, execCall, push_of_full s s.pc (by omega)]

theorem exec_ret_of_succ (n : Nat) (h : n + 1 < 17) (e : s.sp = ⟨n + 1, h⟩) :
    exec .ret s = complete ((s.setStack s.stack ⟨n, by omega⟩).setPc s.stack[n]) := by
  simp only [exec, execRet, pop_of_succ s n h e]

theorem exec_ret_of_zero (e : s.sp = 0) : exec .ret s = raise .stackUnderflow s := by
  simp only [exec, execRet, pop_of_zero s e]

end Stack

/-- Settles O35: the two sides of a full stack, the push read off slot by slot. -/
theorem callPushesThenJumpsOrOverflows : Obligations.CallPushesThenJumpsOrOverflows := by
  refine fun s nnn => ⟨fun h => ?_, fun h => ?_⟩
  · refine ⟨_, exec_call_of_lt s nnn h, rfl, zextAddr_toNat nnn, rfl, Vector.getElem_set_self h, ?_,
      (onlyChanges_setStack_setPc s _ _ _).setReply _⟩
    exact fun k hk hne => Vector.getElem_set_ne h hk hne.symm
  · rw [exec_call_of_full s nnn h]
    exact raise_tookFault _ s

/-- Settles O36: the two sides of an empty stack. -/
theorem returnPopsToPcOrUnderflows : Obligations.ReturnPopsToPcOrUnderflows := by
  refine fun s => ⟨fun h => ?_, fun h => ?_⟩
  · have hlt := s.sp.isLt
    have e : s.sp = ⟨s.sp.val - 1 + 1, by omega⟩ := Fin.ext (by simp only; omega)
    exact ⟨_, exec_ret_of_succ s _ _ e, rfl, rfl, rfl, rfl, (onlyChanges_setStack_setPc s _ _ _).setReply _⟩
  · rw [exec_ret_of_zero s (Fin.ext h)]
    exact raise_tookFault _ s

/-- Settles O37: a CALL that completed pushed its a + 2 at the old SP, which is the slot RET pops. -/
theorem callThenReturnComesBack : Obligations.CallThenReturnComesBack := by
  intro s t u nnn hcall hdone hstack hsp
  obtain ⟨pushes, overflows⟩ := callPushesThenJumpsOrOverflows s nnn
  by_cases hlt : s.sp.val < 16
  · obtain ⟨t', ht', _, _, htsp, htop, _, _⟩ := pushes hlt
    obtain rfl : t = t' := by simpa [hcall] using ht'
    have husp : u.sp.val = s.sp.val + 1 := by rw [hsp, htsp]
    obtain ⟨r, hr, hrdone, hrpc, hrsp, _, _⟩ := (returnPopsToPcOrUnderflows u).1 (by omega)
    refine ⟨r, hr, hrdone, ?_, Fin.ext (by omega)⟩
    calc r.pc = u.stack[u.sp.val - 1] := hrpc
      _ = t.stack[s.sp.val] := by simp only [hstack, husp, Nat.add_sub_cancel]
      _ = s.pc := htop
  · obtain ⟨t', ht', hfault⟩ := overflows (by have := s.sp.isLt; omega)
    obtain rfl : t = t' := by simpa [hcall] using ht'
    exact absurd hdone hfault.not_completed

/-! ### Jumps (R104, R110) -/

/-- An instruction that only sets PC completes with that PC and nothing else changed. -/
theorem complete_setPc (s : State) (w : Word) :
    ∃ t, complete (s.setPc w) = .next t ∧ Completed t ∧ t.pc = w ∧ OnlyChanges [.pc] s t :=
  ⟨_, rfl, rfl, rfl, (onlyChanges_setPc s w).setReply _⟩

/-- nnn + V0 is at most 0xFFF + 0xFF, so the 16-bit sum does not wrap. -/
theorem zextAddr_add_zextByte_toNat (nnn : Addr) (b : Byte) :
    (zextAddr nnn + zextByte b).toNat = nnn.toNat + b.toNat := by
  have := nnn.isLt
  have := b.isLt
  rw [BitVec.toNat_add, zextAddr_toNat, zextByte_toNat]
  omega

/-- Settles O34: the zero-extended address is nnn as a number. -/
theorem jumpSetsPc : Obligations.JumpSetsPc := by
  intro s nnn
  obtain ⟨t, ht, _, hpc, hframe⟩ := complete_setPc s (zextAddr nnn)
  exact ⟨t, ht, by rw [hpc, zextAddr_toNat], hframe⟩

/-- Settles O39: the sum of the zero-extended operands does not wrap. -/
theorem jumpV0AddsWithoutMask : Obligations.JumpV0AddsWithoutMask := by
  intro s nnn
  obtain ⟨t, ht, hdone, hpc, hframe⟩ := complete_setPc s (zextAddr nnn + zextByte (s.getV 0))
  exact ⟨t, ht, hdone, by rw [hpc, zextAddr_add_zextByte_toNat], hframe⟩

/-! ### Skips (R102, R106 to R109) -/

/-- A skip instruction moves PC by one word exactly on its condition, and changes nothing else. -/
theorem skipIf_pc (c : Bool) (s : State) :
    ∃ t, skipIf c s = .next t ∧ t.pc = (if c then s.pc + 2 else s.pc) ∧ OnlyChanges [.pc] s t := by
  cases c with
  | false => exact ⟨_, rfl, rfl, (OnlyChanges.refl _ s).setReply _⟩
  | true => exact ⟨_, rfl, rfl, (onlyChanges_setPc s _).setReply _⟩

theorem skipIf_beq_pc (a b : Byte) (s : State) :
    ∃ t, skipIf (a == b) s = .next t ∧ t.pc = (if a = b then s.pc + 2 else s.pc) ∧ OnlyChanges [.pc] s t := by
  simpa only [beq_iff_eq] using skipIf_pc (a == b) s

theorem skipIf_bne_pc (a b : Byte) (s : State) :
    ∃ t, skipIf (a != b) s = .next t ∧ t.pc = (if a = b then s.pc else s.pc + 2) ∧ OnlyChanges [.pc] s t := by
  simpa only [bne_iff_ne, ne_eq, ite_not] using skipIf_pc (a != b) s

/-- Settles O38: SE compares for equality and SNE for inequality, with a byte or a register. -/
theorem skipsCompareAndSkipOneWord : Obligations.SkipsCompareAndSkipOneWord := fun s x y kk =>
  ⟨skipIf_beq_pc (s.getV x) kk s, skipIf_bne_pc (s.getV x) kk s, skipIf_beq_pc (s.getV x) (s.getV y) s,
    skipIf_bne_pc (s.getV x) (s.getV y) s⟩

end Sys2Proof.Machine
end

section
/-! PROOFS. The statements about the ALU (41_alu.md). The twelve instructions write their result in one of two ways,
a register alone or a register and then VF; what each way leaves is said once, and each statement adds the arithmetic
of its result and flag. -/

namespace Sys2Proof.Machine

/-! ### The two ways a result is written (R130) -/

section Results
variable (s : State) (x : Nibble)

/-- An instruction without a flag: Vx is the result and nothing else changes, VF included. -/
theorem complete_setV (b : Byte) :
    ∃ t, complete (s.setV x b) = .next t ∧ Completed t ∧ t.getV x = b ∧ VExcept [x] s t ∧ OnlyChanges [.v] s t :=
  ⟨_, rfl, rfl, by simp, vExcept_setV s x b, (onlyChanges_setV s x b).setReply _⟩

theorem onlyChanges_writeResultAndFlag (result flag : Byte) :
    OnlyChanges [.v] s (writeResultAndFlag x result flag s) :=
  ((onlyChanges_setV s x result).trans (onlyChanges_setV _ vf flag)).mono (by simp)

/-- An instruction with a flag: the flag is written last, so VF is the flag even where x = 0xF. -/
theorem complete_writeResultAndFlag (result flag : Byte) :
    ∃ t, complete (writeResultAndFlag x result flag s) = .next t ∧ Completed t ∧ (x ≠ vf → t.getV x = result) ∧
      t.getV vf = flag ∧ VExcept [x, vf] s t ∧ OnlyChanges [.v] s t := by
  refine ⟨_, rfl, rfl, fun hx => ?_, ?_, (execFrame_writeResultAndFlag rfl).regs,
    (onlyChanges_writeResultAndFlag s x result flag).setReply _⟩
  · rw [getV_setReply, getV_writeResultAndFlag, if_neg hx, if_pos rfl]
  · rw [getV_setReply, getV_writeResultAndFlag, if_pos rfl]

end Results

/-! ### Flag values (10_state.md R22) -/

theorem flagByte_decide (p : Prop) [Decidable p] : flagByte (decide p) = if p then 1 else 0 := by
  simp only [flagByte, decide_eq_true_eq]

theorem flagByte_bit0 (b : Byte) : flagByte (b.getLsbD 0) = if b.toNat % 2 = 1 then 1 else 0 := by
  rw [BitVec.getLsbD, Nat.testBit_zero, flagByte_decide]

theorem flagByte_bit7 (b : Byte) : flagByte (b.getLsbD 7) = if 128 ≤ b.toNat then 1 else 0 := by
  have msb : b.getLsbD 7 = b.msb := b.msb_eq_getLsbD_last.symm
  rw [msb, BitVec.msb_eq_decide, flagByte_decide]

/-- The form in which 41_alu.md R138 and R140 write a difference modulo 256. -/
theorem toNat_sub_byte (a b : Byte) : (a - b).toNat = (a.toNat + 256 - b.toNat) % 256 := by
  have := b.isLt
  rw [BitVec.toNat_sub]
  omega

/-! ### Instructions without a flag (R131 to R136, R142) -/

/-- Settles O40: both loads only write Vx. -/
theorem loadsWriteOneRegister : Obligations.LoadsWriteOneRegister := by
  intro s x y kk
  obtain ⟨t, ht, _, himm⟩ := complete_setV s x kk
  obtain ⟨u, hu, _, hreg⟩ := complete_setV s x (s.getV y)
  exact ⟨⟨t, ht, himm⟩, ⟨u, hu, hreg⟩⟩

/-- Settles O41: the sum of two bytes as a number is taken modulo 256. -/
theorem addImmediateWrapsWithoutFlag : Obligations.AddImmediateWrapsWithoutFlag := by
  intro s x kk
  obtain ⟨t, ht, hdone, hx, hframe⟩ := complete_setV s x (s.getV x + kk)
  exact ⟨t, ht, hdone, by rw [hx, BitVec.toNat_add], hframe⟩

/-- Settles O42: bit k of each result is the operation on bits k of the operands. -/
theorem logicIsBitwiseWithoutFlag : Obligations.LogicIsBitwiseWithoutFlag := by
  intro s x y
  refine ⟨?or, ?and, ?xor⟩
  case or =>
    obtain ⟨t, ht, hdone, hx, hframe⟩ := complete_setV s x (s.getV x ||| s.getV y)
    exact ⟨t, ht, hdone, fun k => by rw [hx, BitVec.getLsbD_or], hframe⟩
  case and =>
    obtain ⟨t, ht, hdone, hx, hframe⟩ := complete_setV s x (s.getV x &&& s.getV y)
    exact ⟨t, ht, hdone, fun k => by rw [hx, BitVec.getLsbD_and], hframe⟩
  case xor =>
    obtain ⟨t, ht, hdone, hx, hframe⟩ := complete_setV s x (s.getV x ^^^ s.getV y)
    exact ⟨t, ht, hdone, fun k => by rw [hx, BitVec.getLsbD_xor], hframe⟩

/-- Settles O48: consuming the draw and then writing Vx are two separate updates, whatever byte the source gives. -/
theorem randomByteIsMasked : Obligations.RandomByteIsMasked := by
  intro s x kk
  obtain ⟨t, ht, hdone, hx, hregs, hparts⟩ := complete_setV (consumeRnd s) x (s.nextRnd &&& kk)
  refine ⟨t, ht, hdone, fun k => ?bits, fun hkk => ?zero, ?draws, hregs,
    (onlyChanges_setDraws s _).trans hparts |>.mono (by simp)⟩
  case bits => rw [hx, BitVec.getLsbD_and, State.nextRnd]
  case zero =>
    subst hkk
    exact hx.trans BitVec.and_zero
  case draws => exact hparts .draws (by simp)

/-! ### Instructions with a flag (R137 to R141) -/

/-- Settles O43: the carry is set exactly when the sum as a number exceeds 255. -/
theorem addSetsCarry : Obligations.AddSetsCarry := by
  intro s x y
  obtain ⟨t, ht, _, hx, hvf, hframe⟩ :=
    complete_writeResultAndFlag s x (s.getV x + s.getV y) (carryFlag (s.getV x) (s.getV y))
  exact ⟨t, ht, fun h => by rw [hx h, BitVec.toNat_add], by rw [hvf, carryFlag, flagByte_decide], hframe⟩

/-- A difference and its flag, for SUB and, with the operands exchanged, for SUBN. -/
theorem complete_difference (s : State) (x : Nibble) (a b : Byte) :
    ∃ t, complete (writeResultAndFlag x (a - b) (greaterFlag a b) s) = .next t ∧ Completed t ∧
      (x ≠ vf → (t.getV x).toNat = (a.toNat + 256 - b.toNat) % 256) ∧
      t.getV vf = (if a.toNat > b.toNat then 1 else 0) ∧ VExcept [x, vf] s t ∧ OnlyChanges [.v] s t := by
  obtain ⟨t, ht, hdone, hx, hvf, hframe⟩ := complete_writeResultAndFlag s x (a - b) (greaterFlag a b)
  exact ⟨t, ht, hdone, fun h => by rw [hx h, toNat_sub_byte], by rw [hvf, greaterFlag, flagByte_decide], hframe⟩

/-- Settles O44: the difference of Vx and Vy. -/
theorem subSetsFlagWhenGreater : Obligations.SubSetsFlagWhenGreater := by
  intro s x y
  obtain ⟨t, ht, _, hresult⟩ := complete_difference s x (s.getV x) (s.getV y)
  exact ⟨t, ht, hresult⟩

/-- Settles O45: the difference of Vy and Vx. -/
theorem subnSetsFlagWhenLess : Obligations.SubnSetsFlagWhenLess := fun s x y =>
  complete_difference s x (s.getV y) (s.getV x)

/-- Settles O46: a logical shift right by one halves the number, and bit 0 is its parity. -/
theorem shrHalvesAndKeepsTheBitOut : Obligations.ShrHalvesAndKeepsTheBitOut := by
  intro s x y
  obtain ⟨t, ht, hdone, hx, hvf, hframe⟩ :=
    complete_writeResultAndFlag s x (s.getV x >>> 1) (shrFlag (s.getV x))
  refine ⟨t, ht, hdone, fun h => ?half, by rw [hvf, shrFlag, flagByte_bit0], hframe⟩
  case half => rw [hx h, BitVec.toNat_ushiftRight, Nat.shiftRight_one]

/-- Settles O47: a shift left by one doubles the number modulo 256; bit 7 is set from 128 on, and bit 0 is the
parity. -/
theorem shlDoublesAndKeepsTheChosenBit : Obligations.ShlDoublesAndKeepsTheChosenBit := by
  intro s x y
  obtain ⟨t, ht, hdone, hx, hvf, hframe⟩ :=
    complete_writeResultAndFlag s x (s.getV x <<< 1) (shlFlag s.params.shlFlagBit (s.getV x))
  refine ⟨t, ht, hdone, fun h => ?double, fun hbit => ?bit7, fun hbit => ?bit0, hframe⟩
  case double => rw [hx h, BitVec.toNat_shiftLeft, Nat.shiftLeft_eq, pow_one]
  case bit7 => rw [hvf, hbit, shlFlag, shlFlagIndex, flagByte_bit7]
  case bit0 => rw [hvf, hbit, shlFlag, shlFlagIndex, flagByte_bit0]

end Sys2Proof.Machine
end

section
/-! PROOFS. The statements about the index register and its memory accesses (42_index_memory.md). LD I, ADD I and LD F
only set I; LD B and LD [I] are one store of different bytes, whose three ends are said once; LD Vx, [I] is a block
load. -/

namespace Sys2Proof.Machine

/-! ### Setting I (R160 to R162) -/

/-- An instruction that only sets I completes with that I and nothing else changed. -/
theorem complete_setI (s : State) (w : Word) :
    ∃ t, complete (s.setI w) = .next t ∧ Completed t ∧ t.i = w ∧ OnlyChanges [.i] s t :=
  ⟨_, rfl, rfl, rfl, (onlyChanges_setI s w).setReply _⟩

/-- 5·d is at most 75, so it fits in I. -/
theorem fontAddr_toNat (d : Nibble) : (fontAddr d).toNat = 5 * d.toNat := by
  have := d.isLt
  rw [fontAddr, BitVec.toNat_ofNat]
  omega

theorem exec_ldF_of_ok {s : State} {x d : Nibble} (h : hexDigit s.params.hexDigitPolicy (s.getV x) = .ok d) :
    exec (.ldF x) s = complete (s.setI (fontAddr d)) := by
  simp only [exec, execLdF, h]

theorem exec_ldF_of_error {s : State} {x : Nibble} {k : FaultKind}
    (h : hexDigit s.params.hexDigitPolicy (s.getV x) = .error k) : exec (.ldF x) s = raise k s := by
  simp only [exec, execLdF, h]

/-- A digit accepted by either policy is the low four bits of Vx. -/
theorem exec_ldF_of_low_bits {s : State} {x : Nibble}
    (h : hexDigit s.params.hexDigitPolicy (s.getV x) = .ok ((s.getV x).setWidth 4)) :
    ∃ t, exec (.ldF x) s = .next t ∧ Completed t ∧ t.i.toNat = 5 * ((s.getV x).toNat % 16) ∧
      OnlyChanges [.i] s t := by
  obtain ⟨t, ht, hdone, hi, hframe⟩ := complete_setI s (fontAddr ((s.getV x).setWidth 4))
  exact ⟨t, (exec_ldF_of_ok h).trans ht, hdone, by rw [hi, fontAddr_toNat, BitVec.toNat_setWidth], hframe⟩

/-- Settles O51: up to 0x0F the low four bits are the digit itself; above, the two policies part. -/
theorem loadFontAddressOfDigit : Obligations.LoadFontAddressOfDigit := by
  refine fun s x => ⟨fun hle => ?digit, fun _ hmask => ?mask, fun hgt hfault => ?fault⟩
  case digit =>
    have hdigit : (s.getV x).toNat % 16 = (s.getV x).toNat := Nat.mod_eq_of_lt (Nat.lt_succ_of_le hle)
    exact hdigit ▸ exec_ldF_of_low_bits (hexDigit_of_le _ _ hle)
  case mask =>
    exact exec_ldF_of_low_bits (by rw [hmask, hexDigit_mask])
  case fault =>
    have hraise : hexDigit s.params.hexDigitPolicy (s.getV x) = .error (.hexDigitOutOfRange (s.getV x)) := by
      rw [hfault, hexDigit_fault _ hgt]
    rw [exec_ldF_of_error hraise]
    exact raise_tookFault _ s

/-- Settles O49: the zero-extended address is nnn as a number. -/
theorem loadIndexZeroExtends : Obligations.LoadIndexZeroExtends := by
  intro s nnn
  obtain ⟨t, ht, _, hi, hframe⟩ := complete_setI s (zextAddr nnn)
  exact ⟨t, ht, by rw [hi, zextAddr_toNat], hframe⟩

/-- Settles O50: the 16-bit sum is the sum as a number modulo 2^16. -/
theorem addIndexWrapsWithoutFlag : Obligations.AddIndexWrapsWithoutFlag := by
  intro s x
  obtain ⟨t, ht, hdone, hi, hframe⟩ := complete_setI s (s.i + zextByte (s.getV x))
  exact ⟨t, ht, hdone, by rw [hi, BitVec.toNat_add, zextByte_toNat], hframe⟩

/-! ### The stores (R163, R164) -/

/-- What LD B and LD [I] share: their bytes are stored from I on, or the fault of the store is raised. -/
def storeAtI (bytes : List Byte) (s : State) : Result :=
  match memWrite s s.ea bytes with
  | .error k => raise k s
  | .ok u => complete u

theorem exec_ldB_eq_storeAtI (x : Nibble) (s : State) : exec (.ldB x) s = storeAtI (bcdDigits (s.getV x)) s := rfl

theorem exec_ldMemVx_eq_storeAtI (x : Nibble) (s : State) : exec (.ldMemVx x) s = storeAtI (s.block x) s := rfl

section StoreAtI
variable {s : State} {bytes : List Byte}

theorem storeAtI_stores (hend : s.ea + bytes.length ≤ 0x1000)
    (hfont : s.params.fontProtect = true → 0x50 ≤ s.ea) :
    ∃ t, storeAtI bytes s = .next t ∧ Completed t ∧
      (∀ k (hk : k < bytes.length), t.byte (s.ea + k) = bytes[k]) ∧
      MemExcept s.ea bytes.length s t ∧ OnlyChanges [.mem] s t := by
  rw [storeAtI, memWrite_of_ok hend hfont]
  exact ⟨_, rfl, rfl, fun k hk => byte_setMem_writeBytes_getElem s s.ea bytes hk,
    memExcept_setMem_writeBytes s s.ea bytes, (onlyChanges_setMem s _).setReply _⟩

theorem storeAtI_outOfBounds (hpos : 0 < bytes.length) (hend : 0x1000 < s.ea + bytes.length)
    (hfont : s.params.fontProtect = true → 0x50 ≤ s.ea) :
    ∃ t, storeAtI bytes s = .next t ∧ TookFault (.outOfBoundsAddress (max s.ea 0x1000)) s t := by
  rw [storeAtI, memWrite_bound hpos hend hfont]
  exact raise_tookFault _ s

theorem storeAtI_protected (hpos : 0 < bytes.length) (hfont : s.params.fontProtect = true) (hlow : s.ea ≤ 0x4F) :
    ∃ t, storeAtI bytes s = .next t ∧ TookFault (.protectedWrite s.ea) s t := by
  rw [storeAtI, memWrite_protected hpos hlow hfont]
  exact raise_tookFault _ s

end StoreAtI

@[simp] theorem bcdDigits_length (v : Byte) : (bcdDigits v).length = 3 := rfl

/-- A byte is at most 255, so each of its decimal digits is a byte. -/
theorem bcdDigits_toNat (v : Byte) :
    (bcdDigits v)[0].toNat = v.toNat / 100 ∧ (bcdDigits v)[1].toNat = v.toNat / 10 % 10 ∧
      (bcdDigits v)[2].toNat = v.toNat % 10 := by
  have := v.isLt
  refine ⟨(BitVec.toNat_ofNat _ _).trans ?_, (BitVec.toNat_ofNat _ _).trans ?_, (BitVec.toNat_ofNat _ _).trans ?_⟩ <;>
    omega

/-- Settles O52: LD B is the store of three digits; a store that runs past 0x0FFF begins above the font. -/
theorem storeBcdDigits : Obligations.StoreBcdDigits := by
  intro s x
  rw [exec_ldB_eq_storeAtI]
  have hlen := bcdDigits_length (s.getV x)
  refine ⟨fun hend hfont => ?stored, fun hend => ?outOfBounds, fun hfont hlow => ?intoFont⟩
  case stored =>
    obtain ⟨t, ht, hdone, hbyte, hmem, hframe⟩ := storeAtI_stores (bytes := bcdDigits (s.getV x)) (by omega) hfont
    obtain ⟨hundreds, tens, units⟩ := bcdDigits_toNat (s.getV x)
    exact ⟨t, ht, hdone, (congrArg BitVec.toNat (hbyte 0 (by omega))).trans hundreds,
      (congrArg BitVec.toNat (hbyte 1 (by omega))).trans tens,
      (congrArg BitVec.toNat (hbyte 2 (by omega))).trans units, hmem, hframe⟩
  case outOfBounds => exact storeAtI_outOfBounds (by omega) (by omega) (fun _ => by omega)
  case intoFont => exact storeAtI_protected (by omega) hfont hlow

/-- Settles O53: LD [I] is the store of the block V0 to Vx, of x + 1 bytes. -/
theorem storeBlockOfRegisters : Obligations.StoreBlockOfRegisters := by
  intro s x
  rw [exec_ldMemVx_eq_storeAtI]
  have hlen := block_length s x
  refine ⟨fun hend hfont => ?stored, fun hend hfont => ?outOfBounds, fun hfont hlow => ?intoFont⟩
  case stored =>
    obtain ⟨t, ht, hdone, hbyte, hmem, hframe⟩ := storeAtI_stores (bytes := s.block x) (by omega) hfont
    refine ⟨t, ht, hdone, fun k hk => ?_, hlen ▸ hmem, hframe⟩
    exact (hbyte k.toNat (by omega)).trans (block_getElem s x k.toNat _)
  case outOfBounds => exact storeAtI_outOfBounds (by omega) (by omega) hfont
  case intoFont => exact storeAtI_protected (by omega) hfont hlow

/-! ### The block load (R165) -/

/-- A block load gives the n registers from V0 on the n bytes, and no other register. -/
theorem getV_setVs_loadBlock_bytes (s : State) (addr n : Nat) (r : Nibble) :
    (s.setVs (loadBlock 0 (s.bytes addr n) s.v)).getV r =
      if r.toNat < n then s.byte (addr + r.toNat) else s.getV r := by
  simp only [State.getV, State.setVs_v, loadBlock_getElem, Nat.zero_le, if_true, Nat.sub_zero]
  split
  case isTrue h =>
    rw [List.getD_eq_getElem _ _ (by rwa [bytes_length]), bytes_getElem]
  case isFalse h =>
    rw [List.getD_eq_default _ _ (by rw [bytes_length]; omega)]

theorem exec_ldVxMem_of_le {s : State} {x : Nibble} (h : s.ea + x.toNat ≤ 0x0FFF) :
    exec (.ldVxMem x) s = complete (s.setVs (loadBlock 0 (s.bytes s.ea (x.toNat + 1)) s.v)) := by
  simp only [exec, execLdVxMem, blockLength]
  rw [memRead_eq, if_pos (by omega)]

theorem exec_ldVxMem_of_gt {s : State} {x : Nibble} (h : 0x0FFF < s.ea + x.toNat) :
    exec (.ldVxMem x) s = raise (.outOfBoundsAddress (max s.ea 0x1000)) s := by
  simp only [exec, execLdVxMem, blockLength]
  rw [memRead_eq, if_neg (by omega)]

/-- Settles O54: the read of x + 1 bytes passes its check exactly up to I + x = 0x0FFF. -/
theorem loadBlockOfRegisters : Obligations.LoadBlockOfRegisters := by
  refine fun s x => ⟨fun h => ?loaded, fun h => ?outOfBounds⟩
  case loaded =>
    refine ⟨_, exec_ldVxMem_of_le h, rfl, fun k => ?_, (onlyChanges_setVs s _).setReply _⟩
    rw [getV_setReply, getV_setVs_loadBlock_bytes]
    simp only [Nat.lt_succ_iff]
  case outOfBounds =>
    rw [exec_ldVxMem_of_gt h]
    exact raise_tookFault _ s

end Sys2Proof.Machine
end

section
/-! PROOFS. The statements about the display (43_display.md). DRW ends in one of two ways, by whether its read passes
the check; `drawSprite_spec` says what the drawing does to every cell, and the second draw is two uses of the first. -/

namespace Sys2Proof.Machine

/-! ### The port and CLS (R181, R182) -/

/-- Settles O31: the port's guard is the conjunction of the two bounds. -/
theorem displayPortReadsOrRefuses : Obligations.DisplayPortReadsOrRefuses := by
  refine fun s x y => ⟨fun hx hy => ?inside, fun hout => ?outside⟩
  case inside => exact dif_pos ⟨hx, hy⟩
  case outside => exact dif_neg (by omega)

/-- Settles O55: the buffer is replaced by the cleared one and nothing else is written. -/
theorem clearTurnsEveryPixelOff : Obligations.ClearTurnsEveryPixelOff :=
  fun s => ⟨_, rfl, pixel_clearAll, (onlyChanges_setGfx s clearAll).setReply _⟩

/-! ### The two ends of DRW (R183) -/

/-- The state with the sprite of n bytes at I drawn and the collision in VF. -/
def spriteDrawn (x y n : Nibble) (s : State) : State :=
  let drawn := drawSprite x y (s.bytes s.ea n.toNat) s
  (s.setGfx drawn.1).setV vf (collisionFlag drawn.2)

/-- An empty sprite draws nothing, so n = 0 is the drawing of no bytes. -/
theorem exec_drw_of_fits {s : State} {x y n : Nibble} (h : n = 0 ∨ s.ea + n.toNat ≤ 0x1000) :
    exec (.drw x y n) s = complete (spriteDrawn x y n s) := by
  simp only [exec, execDrw]
  by_cases hn : n = 0
  · subst hn
    rfl
  · rw [if_neg hn, memRead_eq, if_pos (by tauto)]
    rfl

theorem exec_drw_of_outside {s : State} {x y n : Nibble} (hn : n ≠ 0) (h : 0x1000 < s.ea + n.toNat) :
    exec (.drw x y n) s = raise (.outOfBoundsAddress (max s.ea 0x1000)) s := by
  have hpos : n.toNat ≠ 0 := fun e => hn (BitVec.eq_of_toNat_eq e)
  simp only [exec, execDrw]
  rw [if_neg hn, memRead_eq, if_neg (by omega)]

/-! ### The state after a draw (R183) -/

theorem flagByte_eq_one_or_zero (b : Bool) : flagByte b = 1 ∨ flagByte b = 0 := by cases b <;> decide

theorem flagByte_eq_one_iff (b : Bool) : flagByte b = 1 ↔ b = true := by cases b <;> decide

section SpriteDrawn
variable (s : State) (x y n : Nibble)

theorem onlyChanges_spriteDrawn : OnlyChanges [.v, .gfx] s (spriteDrawn x y n s) :=
  ((onlyChanges_setGfx s _).trans (onlyChanges_setV _ vf _)).mono (by simp)

theorem vExcept_spriteDrawn : VExcept [vf] s (spriteDrawn x y n s) := vExcept_setV (s.setGfx _) vf _

theorem pixel_spriteDrawn (cx : Fin 64) (cy : Fin 32) :
    pixel (spriteDrawn x y n s).gfx cx cy = (pixel s.gfx cx cy ^^ spriteCovers s x y n cx cy) :=
  (drawSprite_spec s x y n).1 cx cy

theorem getV_vf_spriteDrawn :
    (spriteDrawn x y n s).getV vf = flagByte (drawSprite x y (s.bytes s.ea n.toNat) s).2 := by
  simp [spriteDrawn, collisionFlag]

/-- A covered cell that was on is a cell that goes from on to off. -/
theorem getV_vf_spriteDrawn_eq_one_iff : (spriteDrawn x y n s).getV vf = 1 ↔
    ∃ cx cy, pixel s.gfx cx cy = true ∧ pixel (spriteDrawn x y n s).gfx cx cy = false := by
  have hit := (drawSprite_spec s x y n).2
  rw [getV_vf_spriteDrawn, flagByte_eq_one_iff, hit]
  refine exists₂_congr fun cx cy => ?_
  rw [pixel_spriteDrawn]
  cases pixel s.gfx cx cy <;> simp

end SpriteDrawn

/-- Settles O56: the two ends of DRW. -/
theorem drawFlipsTheCoveredCells : Obligations.DrawFlipsTheCoveredCells := by
  refine fun s x y n => ⟨fun hfits => ?drawn, fun hn hout => ?outOfBounds⟩
  case drawn =>
    have flag : (spriteDrawn x y n s).getV vf = 1 ∨ (spriteDrawn x y n s).getV vf = 0 := by
      rw [getV_vf_spriteDrawn]
      exact flagByte_eq_one_or_zero _
    exact ⟨_, exec_drw_of_fits hfits, rfl, pixel_spriteDrawn s x y n, flag, getV_vf_spriteDrawn_eq_one_iff s x y n,
      vExcept_spriteDrawn s x y n, (onlyChanges_spriteDrawn s x y n).setReply _⟩
  case outOfBounds =>
    rw [exec_drw_of_outside hn hout]
    exact raise_tookFault _ s

/-! ### The second draw (R183) -/

/-- A DRW that completed had its sprite inside memory, or none to read. -/
theorem fits_of_drw_completed {s t : State} {x y n : Nibble} (h : exec (.drw x y n) s = .next t)
    (hdone : Completed t) : n = 0 ∨ s.ea + n.toNat ≤ 0x1000 := by
  by_contra hfits
  obtain ⟨hn, hout⟩ := not_or.mp hfits
  obtain ⟨t', ht', hfault⟩ := (drawFlipsTheCoveredCells s x y n).2 hn (Nat.lt_of_not_le hout)
  obtain rfl : t = t' := Host.Outcome.next.inj (h.symm.trans ht')
  exact hfault.not_completed hdone

/-- The cells a sprite covers depend on its coordinates, I and memory only. -/
theorem spriteCovers_congr {s t : State} {x y : Nibble} (hx : t.getV x = s.getV x) (hy : t.getV y = s.getV y)
    (hi : t.i = s.i) (hmem : ∀ a, t.byte a = s.byte a) (n : Nibble) (cx : Fin 64) (cy : Fin 32) :
    spriteCovers t x y n cx cy = spriteCovers s x y n cx cy := by
  have hcol : spriteX x t = spriteX x s := by rw [spriteX, spriteX, hx]
  have hline : spriteY y t = spriteY y s := by rw [spriteY, spriteY, hy]
  have haddr : t.ea = s.ea := by rw [State.ea, State.ea, hi]
  rw [spriteCovers, spriteCovers, hcol, hline, haddr, hmem]

/-- Settles O57: the first draw moves neither the sprite nor its coordinates, so the second flips the same cells back,
and a cell it turns off is one the first had turned on. -/
theorem drawTwiceRestoresTheBuffer : Obligations.DrawTwiceRestoresTheBuffer := by
  intro s t x y n hx hy ht hdone
  have hfits := fits_of_drw_completed ht hdone
  obtain ⟨t', ht', -, hcells, -, -, hregs, hframe⟩ := (drawFlipsTheCoveredCells s x y n).1 hfits
  obtain rfl : t = t' := Host.Outcome.next.inj (ht.symm.trans ht')
  have hi : t.i = s.i := hframe .i (by decide)
  have hmem : ∀ a, t.byte a = s.byte a := hframe .mem (by decide)
  have hcovers := spriteCovers_congr (hregs x (by simpa using hx)) (hregs y (by simpa using hy)) hi hmem n
  have hfits' : n = 0 ∨ t.ea + n.toNat ≤ 0x1000 := by rwa [State.ea, hi]
  obtain ⟨u, hu, hudone, hcells', -, hflag, -, -⟩ := (drawFlipsTheCoveredCells t x y n).1 hfits'
  have hgfx : u.gfx = s.gfx := gfx_ext fun cx cy => by
    rw [hcells', hcovers, hcells, Bool.xor_assoc, Bool.xor_self, Bool.xor_false]
  refine ⟨u, hu, hudone, hgfx, ?_⟩
  rw [hflag, hgfx]
  exact exists₂_congr fun cx cy => and_comm

end Sys2Proof.Machine
end

section
/-! PROOFS. The statements about the timers and the keys (44_timers_keys.md). SKP and SKNP end in one of two ways, by
whether Vx names a key; LD Vx, K takes the lowest key that is down, or the Step leaves only its reply, which is why a
waiting core waits for as long as it is stepped. -/

namespace Sys2Proof.Machine

/-! ### Reading the key that is down, or waiting (R208) -/

section KeyRead
variable {s : State}

theorem lowestKey_of_down {k : Nibble} (hdown : s.key k = true)
    (hlower : ∀ j : Nibble, j.toNat < k.toNat → s.key j = false) : lowestKey s = some k.toNat :=
  (lowestKey_eq_some_iff s k.toNat).mpr
    ⟨k.isLt, hdown, fun j hj => hlower (BitVec.ofNatLT j (hj.trans k.isLt)) hj⟩

theorem lowestKey_of_up (hup : ∀ k, s.key k = false) : lowestKey s = none :=
  (lowestKey_eq_none_iff s).mpr fun k hk => hup (BitVec.ofNatLT k hk)

theorem exec_ldVxK_of_down (x : Nibble) {k : Nibble} (hdown : s.key k = true)
    (hlower : ∀ j : Nibble, j.toNat < k.toNat → s.key j = false) :
    exec (.ldVxK x) s = complete (s.setV x (BitVec.ofNat 8 k.toNat)) := by
  simp only [exec, execLdVxK, lowestKey_of_down hdown hlower]

theorem exec_ldVxK_of_up (x : Nibble) (hup : ∀ k, s.key k = false) : exec (.ldVxK x) s = wait s := by
  simp only [exec, execLdVxK, lowestKey_of_up hup]

end KeyRead

/-- Settles O60: the number of a key fits in a byte, and waiting only takes PC back. -/
theorem keyReadTakesTheLowestOrWaits : Obligations.KeyReadTakesTheLowestOrWaits := by
  refine fun s x => ⟨fun k hdown hlower => ?reads, fun hup => ?waits⟩
  case reads =>
    obtain ⟨t, ht, hdone, hx, hframe⟩ := complete_setV s x (BitVec.ofNat 8 k.toNat)
    have hfits : k.toNat < 2 ^ 8 := k.isLt.trans (by decide)
    exact ⟨t, (exec_ldVxK_of_down x hdown hlower).trans ht, hdone,
      by rw [hx, BitVec.toNat_ofNat, Nat.mod_eq_of_lt hfits], hframe⟩
  case waits =>
    exact ⟨_, exec_ldVxK_of_up x hup, rfl, rfl, (onlyChanges_setPc s _).setReply _⟩

/-! ### Waiting for as long as the core is stepped (R208, 60_exceptions.md R232) -/

/-- Waiting undoes the advance, so that Step leaves only its reply. -/
theorem wait_advance (s : State) : wait (advance s) = .next (s.setReply .waiting) := by
  rw [wait, fetchAddr_advance]
  rfl

theorem step_ldVxK_of_up {s : State} {w : Word} {x : Nibble} (hh : s.halt = none) (hw : fetch s = .ok w)
    (hi : decode w = .ok (.ldVxK x)) (hup : ∀ k, s.key k = false) : step s = .next (s.setReply .waiting) := by
  have hexec : exec (.ldVxK x) (advance s) = .next (s.setReply .waiting) :=
    (exec_ldVxK_of_up (s := advance s) x hup).trans (wait_advance s)
  rw [step_of_exec hh hw hi hexec, finish_setReply_waiting]

theorem run_succ_of_step {s t : State} (h : step s = .next t) (n : Nat) :
    Host.Core.run core (n + 1) s = Host.Core.run core n t := by
  have hcore : core.step s = .next t := h
  simp only [Host.Core.run, hcore]

/-- A state that every further Step gives again is where any number of Steps ends. -/
theorem run_of_step_eq_self {t : State} (h : step t = .next t) (n : Nat) : Host.Core.run core n t = .next t := by
  induction n with
  | zero => rfl
  | succ n ih => rw [run_succ_of_step h, ih]

/-- Settles O24: the reply is no input of the Step, so the first waiting state waits again as itself. -/
theorem keyWaitRepeatsWhileKeysAreUp : Obligations.KeyWaitRepeatsWhileKeysAreUp := by
  intro s w x n hh hw hi hup
  have hfirst : step s = .next (s.setReply .waiting) := step_ldVxK_of_up hh hw hi hup
  have hagain : step (s.setReply .waiting) = .next (s.setReply .waiting) :=
    step_ldVxK_of_up (s := s.setReply .waiting) hh hw hi hup
  rw [run_succ_of_step hfirst, run_of_step_eq_self hagain]

/-! ### Skips on a key (R205 to R207) -/

section KeySkips
variable {s : State} {x : Nibble}

theorem exec_skp_of_ok {d : Nibble} (h : hexDigit s.params.hexDigitPolicy (s.getV x) = .ok d) :
    exec (.skp x) s = skipIf (s.key d) s := by
  simp only [exec, execSkp, h]

theorem exec_sknp_of_ok {d : Nibble} (h : hexDigit s.params.hexDigitPolicy (s.getV x) = .ok d) :
    exec (.sknp x) s = skipIf (!s.key d) s := by
  simp only [exec, execSknp, h]

theorem exec_skp_of_error {k : FaultKind} (h : hexDigit s.params.hexDigitPolicy (s.getV x) = .error k) :
    exec (.skp x) s = raise k s := by
  simp only [exec, execSkp, h]

theorem exec_sknp_of_error {k : FaultKind} (h : hexDigit s.params.hexDigitPolicy (s.getV x) = .error k) :
    exec (.sknp x) s = raise k s := by
  simp only [exec, execSknp, h]

end KeySkips

/-- A value that names a key, by its size or by the policy, names it by its low four bits. -/
theorem hexDigit_of_names_key {p : HexDigitPolicy} {v : Byte} (h : v.toNat ≤ 0x0F ∨ p = .mask) :
    hexDigit p v = .ok (v.setWidth 4) := by
  obtain hle | rfl := h
  · exact hexDigit_of_le p v hle
  · exact hexDigit_mask v

theorem key_setWidth (s : State) (v : Byte) :
    s.key (v.setWidth 4) = s.keys[v.toNat % 16]'(Nat.mod_lt _ (by decide)) := by
  simp only [State.key, BitVec.toNat_setWidth, Nat.reducePow]

theorem skipIf_not_pc (c : Bool) (s : State) :
    ∃ t, skipIf (!c) s = .next t ∧ t.pc = (if c then s.pc else s.pc + 2) ∧ OnlyChanges [.pc] s t := by
  cases c with
  | false => exact skipIf_pc true s
  | true => exact skipIf_pc false s

theorem skipIf_completed {c : Bool} {s t : State} (h : skipIf c s = .next t) : Completed t := by
  cases h
  rfl

/-- Settles O59: both instructions ask HexDigit for the key; where it answers they are `skipIf` on that key down and on
it up, and where it faults they raise its fault. -/
theorem skipOnKeyReadsTheNamedKey : Obligations.SkipOnKeyReadsTheNamedKey := by
  refine fun s x => ⟨fun hnames => ?skips, fun hgt hfault => ?faults⟩
  case skips =>
    have hdigit := hexDigit_of_names_key hnames
    simp only [← key_setWidth]
    obtain ⟨t, ht, htpc, htframe⟩ := skipIf_pc (s.key ((s.getV x).setWidth 4)) s
    obtain ⟨u, hu, hupc, huframe⟩ := skipIf_not_pc (s.key ((s.getV x).setWidth 4)) s
    exact ⟨⟨t, (exec_skp_of_ok hdigit).trans ht, skipIf_completed ht, htpc, htframe⟩,
      ⟨u, (exec_sknp_of_ok hdigit).trans hu, skipIf_completed hu, hupc, huframe⟩⟩
  case faults =>
    have hraise : hexDigit s.params.hexDigitPolicy (s.getV x) = .error (.hexDigitOutOfRange (s.getV x)) := by
      rw [hfault, hexDigit_fault _ hgt]
    rw [exec_skp_of_error hraise, exec_sknp_of_error hraise]
    exact ⟨raise_tookFault _ s, raise_tookFault _ s⟩

/-! ### Timer moves and the tick that follows (R200 to R204) -/

theorem complete_setDt (s : State) (b : Byte) :
    ∃ t, complete (s.setDt b) = .next t ∧ Completed t ∧ t.dt = b ∧ OnlyChanges [.dt] s t :=
  ⟨_, rfl, rfl, rfl, (onlyChanges_setDt s b).setReply _⟩

theorem complete_setSt (s : State) (b : Byte) :
    ∃ t, complete (s.setSt b) = .next t ∧ Completed t ∧ t.st = b ∧ OnlyChanges [.st] s t :=
  ⟨_, rfl, rfl, rfl, (onlyChanges_setSt s b).setReply _⟩

/-- Settles O58: what each move leaves before the tick, and then the tick of O13 on that state. -/
theorem timerMoves : Obligations.TimerMoves := by
  refine fun s x => ⟨?readsDt, ?writesDt, ?writesSt⟩
  case readsDt =>
    obtain ⟨t, ht, hdone, hx, hregs, hframe⟩ := complete_setV s x s.dt
    obtain ⟨hdt, -⟩ := (tickFollowsACompletedInstruction t).1 hdone
    have hsame : t.dt = s.dt := hframe .dt (by decide)
    exact ⟨t, ht, hdone, hx, hregs, hframe, by rw [getV_finish, hx], by rw [hdt, hsame]⟩
  case writesDt =>
    obtain ⟨t, ht, hdone, hset, hframe⟩ := complete_setDt s (s.getV x)
    obtain ⟨hdt, -⟩ := (tickFollowsACompletedInstruction t).1 hdone
    exact ⟨t, ht, hdone, hset, hframe, by rw [hdt, hset]⟩
  case writesSt =>
    obtain ⟨t, ht, hdone, hset, hframe⟩ := complete_setSt s (s.getV x)
    obtain ⟨-, hst, hbeep, -⟩ := (tickFollowsACompletedInstruction t).1 hdone
    exact ⟨t, ht, hdone, hset, hframe, by rw [hst, hset], by rw [hbeep, hset]⟩

end Sys2Proof.Machine
end

section
/-! PROOFS. The statements about exceptions (60_exceptions.md). `step_ends` says once how a Step ends that answers a
next state, and `exists_step_of_running` that a running core's Step always does; the three outcomes of R233 and the
agreement of the halt record with the reply are read off from them. -/

namespace Sys2Proof.Machine

/-! ### When a Step answers a next state (R224, R233) -/

section Answers
variable {s : State}

theorem step_of_halted {f : FaultRecord} (h : s.halt = some f) : step s = .fault (.halted f) := by
  simp only [step, h]

/-- Every stage of a running core's Step answers: the fetch and the decode with a word and an instruction or with a
fault that the Step takes, and Execute always with a state. -/
theorem exists_step_of_running (hh : s.halt = none) : ∃ t, step s = .next t := by
  cases hf : fetch s with
  | error k => exact ⟨_, step_of_fetch_error hh hf⟩
  | ok w =>
    cases hd : decode w with
    | error e => exact ⟨_, step_of_decode_error hh hf hd⟩
    | ok i =>
      obtain ⟨u, hu, -⟩ := exec_endsAsNamed i (advance s)
      exact ⟨_, step_of_exec hh hf hd hu⟩

end Answers

/-! ### How a Step ends (R221 to R223, R233) -/

section Ends
variable {s t : State}

theorem pc_le_of_fetch_ok {w : Word} (h : fetch s = .ok w) : s.pc.toNat ≤ 0x0FFE := by
  by_contra hgt
  simp [fetch_eq, hgt] at h

theorem lt_pc_of_fetch_error {k : FaultKind} (h : fetch s = .error k) : 0x0FFE < s.pc.toNat := by
  by_contra hle
  simp [fetch_ok (Nat.le_of_not_lt hle)] at h

/-- How a Step ends: its instruction completed, and the core runs on; it waits, which leaves only the reply; the fetch
faulted, and PC is still a; or a fault was raised after the advance, by decode or by Execute. -/
inductive StepEnds (s t : State) : Prop where
  | executed (b : Bool) (reply : t.reply = some (.executed b)) (halt : t.halt = s.halt)
  | waited (h : t = s.setReply .waiting)
  | fetchFaulted (k : FaultKind) (outside : 0x0FFE < s.pc.toNat) (h : t = haltWith k s.pc s)
  | faulted (k : FaultKind) (inside : s.pc.toNat ≤ 0x0FFE) (h : t = haltWith k s.pc (advance s))

/-- The end of Execute on the advanced state, carried to the end of the Step. -/
theorem ExecEnds.stepEnds (h : ExecEnds (advance s) t) (inside : s.pc.toNat ≤ 0x0FFE) : StepEnds s (finish t) := by
  cases h with
  | completed u ht halt =>
    subst ht
    exact .executed _ rfl halt
  | waited ht =>
    have hwait : t = s.setReply .waiting := ht.trans (Host.Outcome.next.inj (wait_advance s))
    rw [hwait, finish_setReply_waiting]
    exact .waited rfl
  | faulted k ht =>
    rw [ht, finish_haltWith, fetchAddr_advance]
    exact .faulted k inside rfl

theorem step_ends (h : step s = .next t) : StepEnds s t := by
  obtain ⟨-, ⟨k, hf, rfl⟩ | ⟨w, e, hf, -, rfl⟩ | ⟨w, i, u, hf, -, hu, rfl⟩⟩ := step_cases h
  · exact .fetchFaulted k (lt_pc_of_fetch_error hf) rfl
  · exact .faulted _ (pc_le_of_fetch_ok hf) rfl
  · exact (exec_ends hu).stepEnds (pc_le_of_fetch_ok hf)

end Ends

/-! ### The statements -/

/-- Settles O11: the four ends of a Step are the three outcomes, the two faults told apart by whether the fetch
succeeded. -/
theorem everyStepEndsInOneOfThreeOutcomes : Obligations.EveryStepEndsInOneOfThreeOutcomes := by
  intro s hh
  obtain ⟨t, ht⟩ := exists_step_of_running hh
  refine ⟨t, ht, ?_⟩
  cases step_ends ht with
  | executed b reply halt => exact .inl ⟨b, reply, halt.trans hh⟩
  | waited h =>
    subst h
    exact .inr (.inl ⟨rfl, onlyChanges_setReply s _⟩)
  | fetchFaulted k outside h =>
    subst h
    have hframe : OnlyChanges [.pc, .halt] s (haltWith k s.pc s) := (onlyChanges_haltWith s k _).mono (by decide)
    exact .inr (.inr ⟨k, rfl, rfl, hframe, (if_neg (Nat.not_le.mpr outside)).symm⟩)
  | faulted k inside h =>
    subst h
    have hframe : OnlyChanges [.pc, .halt] s (haltWith k s.pc (advance s)) :=
      (onlyChanges_setPc s _).trans (onlyChanges_haltWith _ k _)
    exact .inr (.inr ⟨k, rfl, rfl, hframe, (if_pos inside).symm⟩)

/-- Settles O10: a halted core answers its record, and a running core a next state. -/
theorem haltedCoreAnswersItsFault : Obligations.HaltedCoreAnswersItsFault := by
  intro s
  cases hh : s.halt with
  | none =>
    obtain ⟨t, ht⟩ := exists_step_of_running hh
    simp [ht]
  | some g => simp [step_of_halted hh]

theorem haltAgrees_haltWith (k : FaultKind) (a : Word) (s : State) : (haltWith k a s).HaltAgrees := by
  simp [State.HaltAgrees, haltWith]

/-- A running core agrees with every reply that is not Faulted. -/
theorem haltAgrees_of_running {t : State} (halt : t.halt = none) (reply : ∀ f, t.reply ≠ some (.faulted f)) :
    t.HaltAgrees := by
  simp [State.HaltAgrees, halt, reply]

/-- Settles O17: a Step that answers a state began with halt none; it keeps that under a reply that is not Faulted, or
it writes one record to both. -/
theorem stepKeepsHaltAgreement : Obligations.StepKeepsHaltAgreement := by
  intro s t _ h
  obtain ⟨hh, -⟩ := step_cases h
  cases step_ends h with
  | executed b reply halt => exact haltAgrees_of_running (halt.trans hh) (by simp [reply])
  | waited h =>
    subst h
    exact haltAgrees_of_running hh (by simp)
  | fetchFaulted k _ h => exact h ▸ haltAgrees_haltWith k _ s
  | faulted k _ h => exact h ▸ haltAgrees_haltWith k _ _

end Sys2Proof.Machine
end

section
/-! PROOFS. The statements about reset, boot and the end of a run (70_reset_and_hazards.md). The load port ends in one
of three ways, by the reply and the length of the image; a parked core's Step is the tick alone, because the self-jump
undoes the advance. -/

namespace Sys2Proof.Machine

/-! ### The load port (R252) -/

section Load
variable {s : State} {image : List Byte}

theorem maxImage_eq : maxImage = 3584 := rfl

theorem portLoad_of_le (hr : s.reply = none) (h : image.length ≤ 3584) :
    portLoad image s = .next (s.setMem (Memory.writeBytes s.params.font s.mem 0x200 image)) := by
  rw [portLoad, if_neg (not_not.mpr hr), maxImage_eq, if_neg (Nat.not_lt.mpr h), Config.progBase]

theorem portLoad_of_lt (hr : s.reply = none) (h : 3584 < image.length) :
    portLoad image s = .refused (.imageTooLong image.length) := by
  rw [portLoad, if_neg (not_not.mpr hr), maxImage_eq, if_pos h]

theorem portLoad_of_reply (hr : s.reply ≠ none) : portLoad image s = .refused .loadAfterStep := by
  rw [portLoad, if_pos hr]

end Load

/-- Settles O30: the three ends of the load port, the write read off byte by byte. -/
theorem loadPortWritesTheImageOrRefuses : Obligations.LoadPortWritesTheImageOrRefuses := by
  refine fun s image => ⟨fun hr h => ?_, portLoad_of_lt, portLoad_of_reply⟩
  exact ⟨_, portLoad_of_le hr h, fun _ => byte_setMem_writeBytes_getElem s 0x200 image,
    memExcept_setMem_writeBytes s 0x200 image, onlyChanges_setMem s _, hr⟩

/-! ### Boot (R253, R254) -/

section Boot
variable (p : Params) (image : List Byte) (keys : Vector Bool 16)

/-- The state after reset with the image loaded. -/
def loaded : State := (State.resetWith p).setMem (Memory.writeBytes p.font [] 0x200 image)

variable {image} in
theorem portBoot_of_le (h : image.length ≤ 3584) :
    portBoot p image keys = .next (portSetKeys keys (loaded p image)) := by
  have hload : portLoad image (State.resetWith p) = .next (loaded p image) := portLoad_of_le rfl h
  rw [portBoot, hload]

/-- From PROG_BASE on, memory reads as the image and then zeros: the font lies below. -/
theorem byte_loaded (k : Nat) : (loaded p image).byte (0x200 + k) = image.getD k 0 := by
  refine (byte_setMem_writeBytes (State.resetWith p) 0x200 image (0x200 + k)).trans ?_
  rw [if_pos (Nat.le_add_right 0x200 k), Nat.add_sub_cancel_left, byte_resetWith_above p (0x200 + k) (by omega)]

/-- The key state is no input of the fetch. -/
theorem fetch_portSetKeys (s : State) : fetch (portSetKeys keys s) = fetch s := rfl

theorem fetch_loaded : fetch (loaded p image) = .ok (bigEndian (image.getD 0 0) (image.getD 1 0)) := by
  have hpc : (loaded p image).pc.toNat = 0x200 := rfl
  rw [fetch_ok (by omega), hpc]
  exact congrArg Except.ok (congrArg₂ bigEndian (byte_loaded p image 0) (byte_loaded p image 1))

end Boot

/-- Settles O32: PC after reset is PROG_BASE, where the image was loaded. -/
theorem firstStepFetchesTheImage : Obligations.FirstStepFetchesTheImage := fun p image keys h =>
  ⟨_, portBoot_of_le p keys h, rfl, rfl, rfl, (fetch_portSetKeys keys _).trans (fetch_loaded p image)⟩

/-! ### The parked core (R260) -/

/-- Parked, said through the fetch, which succeeds only where a ≤ 0x0FFE. -/
theorem parked_iff {s : State} : s.parked = true ↔ s.halt = none ∧ fetch s = .ok (0x1000#16 ||| s.pc) := by
  by_cases hpc : s.pc.toNat ≤ 0x0FFE
  · simp [State.parked, hpc, fetch_ok]
  · simp [State.parked, hpc, fetch_eq]

/-- R260's word 0x1000 OR a is the word of `JP a`, where a fits in nnn. -/
theorem or_pc_eq_encode_jp {a : Word} (h : a.toNat ≤ 0x0FFE) : 0x1000#16 ||| a = encode (.jp (fieldNnn a)) := by
  have hop : fieldOp a = 0x0 := by
    rw [BitVec.toNat_eq, fieldOp, BitVec.extractLsb'_toNat, Nat.shiftRight_eq_div_pow, Nat.div_eq_of_lt (by omega)]
    rfl
  calc 0x1000#16 ||| a
    _ = encodeA 0x1#4 0#12 ||| encodeA 0x0#4 (fieldNnn a) :=
      congrArg (0x1000#16 ||| ·) (encodeA_of_fields hop rfl).symm
    _ = encodeA (0x1#4 ||| 0x0#4) (0#12 ||| fieldNnn a) := BitVec.or_append
    _ = encode (.jp (fieldNnn a)) := by rw [BitVec.or_zero, BitVec.zero_or, encode]

theorem zextAddr_fieldNnn {a : Word} (h : a.toNat ≤ 0x0FFE) : zextAddr (fieldNnn a) = a := by
  rw [BitVec.toNat_eq, zextAddr_toNat, fieldNnn, BitVec.extractLsb'_toNat, Nat.shiftRight_zero]
  omega

/-- The self-jump undoes the advance, so that only the tick is left of the Step. -/
theorem step_of_parked {s : State} (h : s.parked = true) : step s = .next (tick s) := by
  obtain ⟨hh, hf⟩ := parked_iff.mp h
  have hpc := pc_le_of_fetch_ok hf
  have hd : decode (0x1000#16 ||| s.pc) = .ok (.jp (fieldNnn s.pc)) := by
    rw [or_pc_eq_encode_jp hpc, decodeInvertsEncode]
  have he : exec (.jp (fieldNnn s.pc)) (advance s) = .next (s.setReply (.executed false)) := by
    rw [exec, execJp, zextAddr_fieldNnn hpc]
    rfl
  rw [step_of_exec hh hf hd he, finish_setReply_executed]

/-- Parking reads nothing that the tick writes. -/
theorem parked_tick (s : State) : (tick s).parked = s.parked := rfl

/-- Settles O25, by induction on the number of Steps: each is a tick, which leaves the core parked. -/
theorem parkedCoreStaysParked : Obligations.ParkedCoreStaysParked := by
  intro s n
  induction n generalizing s with
  | zero => exact fun h => ⟨s, rfl, h, .refl _ s⟩
  | succ n ih =>
    intro h
    obtain ⟨t, ht, hparked, hframe⟩ := ih (tick s) ((parked_tick s).trans h)
    refine ⟨t, ?_, hparked, ((onlyChanges_tick s).trans hframe).mono (by decide)⟩
    rw [run_succ_of_step (step_of_parked h), ht]

end Sys2Proof.Machine
end
